-- ==== Sys2Proof/Word.lean ====
section
/-! DEFINITION. Words and addresses (00_scope.md R6, R11, R12; 20_memory.md R48).

`Word` is "the set of W-bit signed values" and `Addr` "the set of natural numbers" (R11); a word is one whole signed
integer, with no byte layout (R48), and its width W is a parameter with W ≥ 2 (R6). So a word is an `Int` of which
`Fits W` is asked, an address is a `Nat`, and an address not yet checked is an `Int` (R71). The types are written
plainly, since arithmetic procedures do not look through a synonym (log 1). -/

namespace Sys2Proof

/-- The least W-bit signed value, -2^(W-1) (R6). -/
def minWord (W : Nat) : Int := -((2 ^ (W - 1) : Nat) : Int)

/-- The greatest W-bit signed value, 2^(W-1) - 1 (R6). -/
def maxWord (W : Nat) : Int := ((2 ^ (W - 1) : Nat) : Int) - 1

/-- `fits(v)` of R12: `-2^(W-1) <= v <= 2^(W-1)-1`. -/
abbrev Fits (W : Nat) (v : Int) : Prop := minWord W ≤ v ∧ v ≤ maxWord W

end Sys2Proof
end

