-- ==== Sys2Proof/Config.lean ====
section
/-! DEFINITION. The parameters an instance is built with (00_scope.md R5 to R9).

The spec leaves no value undefined (93_implementation_defined.md), so there is no free value here: what an
implementation decides is one of these four parameters, and the model covers every value of each (log 3). -/

namespace Sys2Proof

/-- `OVERFLOW_MODE` (R7): what an arithmetic result outside the W-bit range does. -/
inductive OverflowMode
  /-- The instruction raises the Overflow fault (the default). -/
  | fault
  /-- The result is reduced to W bits two's complement. -/
  | wrap
deriving DecidableEq, Repr

/-- `IO_MODE` (R5, R9): the I/O discipline, fixed at construction. -/
inductive IoMode
  /-- The synchronous queue controller. -/
  | sync
  /-- The streaming single-slot controller. -/
  | stream
deriving DecidableEq, Repr

/-- The implementation parameters of one instance (R6 to R9, "No other parameter exists"). -/
structure Params where
  /-- `WORD_BITS` (R6). -/
  wordBits : Nat
  /-- `OVERFLOW_MODE` (R7). -/
  overflow : OverflowMode
  /-- `MEM_WORDS` (R8): the capacity in words; `none` is `unbounded`. -/
  memWords : Option Nat
  /-- `IO_MODE` (R5, R9). -/
  ioMode : IoMode
deriving DecidableEq, Repr

/-- The spec's defaults: W = 64 (R6), `fault` (R7), `unbounded` (R8). The spec names no default discipline;
`sync` is the model's (DESIGN CHOICE, log 4; the test vectors of 95_test_vectors.md take `sync` too). -/
def Params.default : Params :=
  { wordBits := 64, overflow := .fault, memWords := none, ioMode := .sync }

end Sys2Proof
end

