-- ==== Sys2Proof/Syntax.lean ====
section
/-! DEFINITION. The instructions: one constructor per row of spec/opcode_table.json.

What decoding an instruction word gives is the opcode and the modes of its parameters (30_encoding.md R65,
`Decode(w) -> (op, n, [mode_1 .. mode_n])`). The raw parameter words are not part of it: they are words of memory,
fetched one by one while the instruction runs (R66, R72, R74; log 12). -/

namespace Sys2Proof

/-- The addressing modes (R60). -/
inductive Mode
  /-- Digit 0: the raw word is an address. -/
  | position
  /-- Digit 1: the raw word is the value. -/
  | immediate
  /-- Digit 2: the raw word is an offset from RB. -/
  | relative
deriving DecidableEq, Repr

/-- The ten instructions of the opcode map (R63), each with the modes of its parameters in order. A write parameter
may decode in Immediate mode: that is a fault when it is resolved (R70), not when it is decoded. -/
inductive Instr
  /-- Opcode 1 (R80). -/
  | add (a b dst : Mode)
  /-- Opcode 2 (R81). -/
  | mul (a b dst : Mode)
  /-- Opcode 3 (R85). -/
  | input (dst : Mode)
  /-- Opcode 4 (R86). -/
  | output (a : Mode)
  /-- Opcode 5 (R110). -/
  | jumpIfTrue (cond target : Mode)
  /-- Opcode 6 (R111). -/
  | jumpIfFalse (cond target : Mode)
  /-- Opcode 7 (R115). -/
  | lessThan (a b dst : Mode)
  /-- Opcode 8 (R116). -/
  | equals (a b dst : Mode)
  /-- Opcode 9 (R120). -/
  | adjustBase (a : Mode)
  /-- Opcode 99 (R125). -/
  | halt
deriving DecidableEq, Repr

/-- One item of an assembly listing (R78, R79): an instruction with its raw parameter words, or a data word
(`.word v`). Labels are resolved before this form
(`AsmLine`). -/
inductive AsmItem
  | instr (i : Instr) (raws : List Int)
  | word (v : Int)
deriving DecidableEq, Repr

/-- A raw value as a listing writes it (R78): a number, or a label that stands for its address. -/
inductive RawValue
  | num (v : Int)
  | label (name : String)
deriving DecidableEq, Repr

/-- One line of an assembly listing (R78, R79): a label of the next word (`name:`), an instruction with its raw values,
or a data word. That the value of a data word may be a label too is the model's choice (DESIGN CHOICE, log 22). -/
inductive AsmLine
  | label (name : String)
  | instr (i : Instr) (raws : List RawValue)
  | word (v : RawValue)
deriving DecidableEq, Repr

end Sys2Proof
end

