-- ==== Sys2Proof/Decode.lean ====
section
/-! DEFINITION. Encoding tables, the decoder and the encoder (30_encoding.md R57 to R65, R76 to R79). -/

namespace Sys2Proof

/-! ## The opcode map (R63) -/

/-- The opcode, the low two decimal digits of the instruction word (R63). -/
def Instr.opcode : Instr → Nat
  | .add _ _ _ => 1
  | .mul _ _ _ => 2
  | .input _ => 3
  | .output _ => 4
  | .jumpIfTrue _ _ => 5
  | .jumpIfFalse _ _ => 6
  | .lessThan _ _ _ => 7
  | .equals _ _ _ => 8
  | .adjustBase _ => 9
  | .halt => 99

/-- The modes of the parameters, parameter 1 first (R59). -/
def Instr.modes : Instr → List Mode
  | .add a b d => [a, b, d]
  | .mul a b d => [a, b, d]
  | .input d => [d]
  | .output a => [a]
  | .jumpIfTrue c t => [c, t]
  | .jumpIfFalse c t => [c, t]
  | .lessThan a b d => [a, b, d]
  | .equals a b d => [a, b, d]
  | .adjustBase a => [a]
  | .halt => []

/-- The parameter count n (R63). -/
def Instr.nparams : Instr → Nat
  | .add _ _ _ => 3
  | .mul _ _ _ => 3
  | .input _ => 1
  | .output _ => 1
  | .jumpIfTrue _ _ => 2
  | .jumpIfFalse _ _ => 2
  | .lessThan _ _ _ => 3
  | .equals _ _ _ => 3
  | .adjustBase _ => 1
  | .halt => 0

/-- The instruction length in words, `1 + n` (R57, R63, R77). -/
def Instr.length (i : Instr) : Nat := 1 + i.nparams

/-- Which parameter is written: "always the last parameter" of opcodes 1, 2, 3, 7, 8 (R63). -/
def Instr.writeParam : Instr → Option Nat
  | .add _ _ _ => some 3
  | .mul _ _ _ => some 3
  | .input _ => some 1
  | .output _ => none
  | .jumpIfTrue _ _ => none
  | .jumpIfFalse _ _ => none
  | .lessThan _ _ _ => some 3
  | .equals _ _ _ => some 3
  | .adjustBase _ => none
  | .halt => none

/-! ## Decimal digits -/

/-- `digit(w, k) = (w div 10^k) mod 10` (R11). -/
def digit (w k : Nat) : Nat := w / 10 ^ k % 10

/-- The mode a digit stands for (R60); digits 3 to 9 stand for none (R62). PRESUMED in the source, stated by the spec
from general knowledge: 1 is Immediate and 2 is Relative (G1, log 14). -/
def modeOfDigit : Nat → Option Mode
  | 0 => some .position
  | 1 => some .immediate
  | 2 => some .relative
  | _ => none

/-- The digit of a mode (R60). -/
def Mode.digit : Mode → Nat
  | .position => 0
  | .immediate => 1
  | .relative => 2

/-! ## The decoder -/

/-- Why a word is no instruction. Each of them raises InvalidOpcode(w) when the word is fetched as an instruction. -/
inductive DecodeError
  /-- The word is negative (R57). -/
  | negativeWord
  /-- No instruction has this opcode (R64). -/
  | unknownOpcode (op : Nat)
  /-- The mode digit `d` of parameter `i` is none of 0, 1, 2 (R62). -/
  | badModeDigit (i d : Nat)
deriving DecidableEq, Repr

/-- The mode of parameter `i`, digit `i + 1` of the word (R59, R62). -/
def paramMode (w i : Nat) : Except DecodeError Mode :=
  match modeOfDigit (digit w (i + 1)) with
  | some m => .ok m
  | none => .error (.badModeDigit i (digit w (i + 1)))

/-- An instruction of one parameter. -/
def decode1 (w : Nat) (mk : Mode → Instr) : Except DecodeError Instr :=
  match paramMode w 1 with
  | .error e => .error e
  | .ok m₁ => .ok (mk m₁)

/-- An instruction of two parameters, whose modes are read in order. -/
def decode2 (w : Nat) (mk : Mode → Mode → Instr) : Except DecodeError Instr :=
  match paramMode w 1 with
  | .error e => .error e
  | .ok m₁ =>
    match paramMode w 2 with
    | .error e => .error e
    | .ok m₂ => .ok (mk m₁ m₂)

/-- An instruction of three parameters, whose modes are read in order. -/
def decode3 (w : Nat) (mk : Mode → Mode → Mode → Instr) : Except DecodeError Instr :=
  match paramMode w 1 with
  | .error e => .error e
  | .ok m₁ =>
    match paramMode w 2 with
    | .error e => .error e
    | .ok m₂ =>
      match paramMode w 3 with
      | .error e => .error e
      | .ok m₃ => .ok (mk m₁ m₂ m₃)

/-- Decoding a non-negative word (R58, R63, R64): the low two digits select the operation. -/
def decodeNat (w : Nat) : Except DecodeError Instr :=
  match w % 100 with
  | 1 => decode3 w .add
  | 2 => decode3 w .mul
  | 3 => decode1 w .input
  | 4 => decode1 w .output
  | 5 => decode2 w .jumpIfTrue
  | 6 => decode2 w .jumpIfFalse
  | 7 => decode3 w .lessThan
  | 8 => decode3 w .equals
  | 9 => decode1 w .adjustBase
  | 99 => .ok .halt
  | op => .error (.unknownOpcode op)

/-- `Decode(w)` of R65: a pure function of the instruction word, total, rejecting by name. -/
def decode (w : Int) : Except DecodeError Instr :=
  if w < 0 then .error .negativeWord else decodeNat w.toNat

/-! ## The encoder and the assembler -/

/-- The digits of the modes above the opcode, parameter 1 at the hundreds (R59). -/
def modesValue : List Mode → Nat
  | [] => 0
  | m :: ms => m.digit + 10 * modesValue ms

/-- The instruction word `op + 100*m_1 + 1000*m_2 + 10000*m_3`, with no ignored digits (R79). -/
def encode (i : Instr) : Int := ((i.opcode + 100 * modesValue i.modes : Nat) : Int)

/-- The words of one assembly item: the instruction word, then the raw values; or the data word (R79). -/
def AsmItem.words : AsmItem → List Int
  | .instr i raws => encode i :: raws
  | .word v => [v]

/-- The image of a listing (R79). -/
def assemble : List AsmItem → List Int
  | [] => []
  | x :: xs => x.words ++ assemble xs

/-! ## Labels and spelling of a listing (R78; log 20) -/

/-- How many words a line makes. -/
def AsmLine.size : AsmLine → Nat
  | .label _ => 0
  | .instr _ raws => 1 + raws.length
  | .word _ => 1

/-- The address a label denotes in a listing that starts at `a`: that of the next word (R78); the first definition
counts. -/
def labelAddr (name : String) : Nat → List AsmLine → Option Nat
  | _, [] => none
  | a, .label n :: rest => if n = name then some a else labelAddr name a rest
  | a, .instr _ raws :: rest => labelAddr name (a + (1 + raws.length)) rest
  | a, .word _ :: rest => labelAddr name (a + 1) rest

/-- The number a raw value stands for in a listing loaded at 0; none for a label the listing does not define. -/
def RawValue.resolve (listing : List AsmLine) : RawValue → Option Int
  | .num v => some v
  | .label name => (labelAddr name 0 listing).map Int.ofNat

/-- The raw values of an instruction, resolved. -/
def resolveRaws (listing : List AsmLine) : List RawValue → Option (List Int)
  | [] => some []
  | r :: rs => (r.resolve listing).bind fun v => (resolveRaws listing rs).map (v :: ·)

/-- The items that lines of `listing` make; a data word's value is resolved as a raw value is (DESIGN CHOICE, log 22). -/
def resolveLines (listing : List AsmLine) : List AsmLine → Option (List AsmItem)
  | [] => some []
  | .label _ :: rest => resolveLines listing rest
  | .instr i raws :: rest =>
    (resolveRaws listing raws).bind fun vs => (resolveLines listing rest).map (AsmItem.instr i vs :: ·)
  | .word v :: rest => (v.resolve listing).bind fun w => (resolveLines listing rest).map (AsmItem.word w :: ·)

/-- The image of a listing with labels (R78, R79); none when a label is not defined. -/
def assembleListing (listing : List AsmLine) : Option (List Int) :=
  (resolveLines listing listing).map assemble

/-- The mnemonic: the source's name of the opcode (R78). -/
def Instr.mnemonic : Instr → String
  | .add _ _ _ => "add"
  | .mul _ _ _ => "mul"
  | .input _ => "input"
  | .output _ => "output"
  | .jumpIfTrue _ _ => "jump-if-true"
  | .jumpIfFalse _ _ => "jump-if-false"
  | .lessThan _ _ _ => "less-than"
  | .equals _ _ _ => "equals"
  | .adjustBase _ => "adjust-base"
  | .halt => "halt"

/-- An operand as R78 spells it: `[a]`, `#v`, `[rb+k]` or `[rb-k]`. -/
def spellOperand (m : Mode) (raw : Int) : String :=
  match m with
  | .position => "[" ++ toString raw ++ "]"
  | .immediate => "#" ++ toString raw
  | .relative => if raw < 0 then "[rb" ++ toString raw ++ "]" else "[rb+" ++ toString raw ++ "]"

/-- The spelling of an item: the mnemonic and its operands separated by commas in parameter order (R78), or `.word v`
(R79). -/
def AsmItem.spell : AsmItem → String
  | .instr i [] => i.mnemonic
  | .instr i raws => i.mnemonic ++ " " ++ ", ".intercalate (List.zipWith spellOperand i.modes raws)
  | .word v => ".word " ++ toString v

/-! ## The host's numbering of an instruction's bits (log 13)

The encoding is decimal and the opcode table gives no bit fields. The host numbers an instruction's bits from the least
significant bit of its first word; with W-bit words, word k is bits `W*k` to `W*k + W - 1`, two's complement (R6). -/

/-- The signed value of W bits (R6). -/
def wordOfBits (W n : Nat) : Int :=
  if n % 2 ^ W < 2 ^ (W - 1) then ((n % 2 ^ W : Nat) : Int) else ((n % 2 ^ W : Nat) : Int) - ((2 ^ W : Nat) : Int)

/-- The longest instruction, in words (R77). -/
def longestInstr : Nat := 4

/-- The words that the low `nbits` bits of `w` make, every bit above them 0: as many words as the longest
instruction has. -/
def tableWords (W nbits w : Nat) : List Int :=
  (List.range longestInstr).map (fun k => wordOfBits W (w % 2 ^ nbits / 2 ^ (W * k)))

/-- The instruction the decoder reads from bits numbered as the opcode table numbers them, at the default width
(R6). -/
def decodeTableWord (nbits w : Nat) : Option Instr :=
  match tableWords Params.default.wordBits nbits w with
  | [] => none
  | v :: _ =>
    match decode v with
    | .ok i => some i
    | .error _ => none

end Sys2Proof
end

