-- ==== Sys2Proof/Machine/State.lean ====
section
/-! DEFINITION. The state of one CORE instance (10_state.md R20 to R37) and the reasons a step can stop.

Plain data. Every item of R35 is a field; the parameters (R37) are a read-only field (log 3); `script` and `received`
are the Driver's side of the handshake, the model's own fields (log 7, log 8). -/

namespace Sys2Proof.Machine

/-- M (R24) in canonical form: (address, word) pairs, addresses strictly rising, no word 0; an address not listed
holds 0 (R24, "`M[a] = 0` for every `a ≥ L`"). Whole words, no bytes (R48; log 2). -/
abbrev Memory := List (Nat × Int)

/-- The core state tag STATE (R25). -/
inductive Tag
  /-- The Core executes instructions. -/
  | running
  /-- Opcode 3 found the input slot empty (stream mode). -/
  | awaitingInput
  /-- Opcode 99 was executed; terminal for the Core (R128). -/
  | halted
  /-- A fault was raised; terminal for the Core (R135). -/
  | faulted
  /-- The streaming core is paused between advances, and before the first. -/
  | idle
  /-- The driver has taken the final status of the stream. -/
  | ended
deriving DecidableEq, Repr

/-- The six fault kinds of the spec (R130, R131, R132). -/
inductive FaultKind
  | invalidOpcode
  | invalidAddress
  | invalidWriteTarget
  | starvedInput
  | overflow
  | capacityExceeded
deriving DecidableEq, Repr

/-- The contents of FAULT (R27). -/
structure FaultRecord where
  /-- The kind of the fault. -/
  kind : FaultKind
  /-- The address of the faulting instruction's instruction word. -/
  ip : Nat
  /-- What R132's last column records for the kind. -/
  detail : Int
deriving DecidableEq, Repr

/-- The statuses the streaming controller hands to the driver (R30, R103). -/
inductive Status
  | output (v : Int)
  | terminated (snapshot : List Int)
  | faulted (record : FaultRecord)
  | endOfStream
deriving DecidableEq, Repr

/-- The driver's events in stream mode (R10, R101, R102, R106). -/
inductive DriverEvent
  | send (v : Int)
  | advance
  | take
deriving DecidableEq, Repr

/-- One pending turn of the schedule (log 7): the driver's next event, or one turn left to the Core before it. -/
inductive Turn
  | core
  | driver (e : DriverEvent)
deriving DecidableEq, Repr

/-- The whole state. -/
structure State where
  /-- The parameters the instance was built with (R5 to R9, R37); no step changes them. -/
  params : Params
  /-- IP (R21). -/
  ip : Nat
  /-- RB (R22). -/
  rb : Int
  /-- M (R24). -/
  mem : Memory
  /-- MemLen (R23). -/
  memLen : Nat
  /-- STATE (R25). -/
  tag : Tag
  /-- FAULT (R27). -/
  fault : Option FaultRecord
  /-- INQ, oldest first (R28). -/
  inq : List Int
  /-- OUTQ, oldest first (R28). -/
  outq : List Int
  /-- INSLOT (R29); `none` is `empty`. -/
  inslot : Option Int
  /-- STATUS (R30); `none` is `empty`. -/
  status : Option Status
  /-- The turns the driver has pending, the next one first: the model's own (log 7). -/
  script : List Turn
  /-- The statuses the driver has taken (R106), oldest first: the model's own (log 8). -/
  received : List Status
deriving DecidableEq, Repr

/-- Why `step` has no next state. These are the states in which NO agent can move: no Core step is enabled and the
driver has no pending event that is enabled. They are not the spec's faults: a fault of the spec (R133) is a next state
whose STATE is Faulted. Every one is safe: the machine itself does not move there either (log 9). -/
inductive Fault
  /-- Raised by `coreStep` in STATE Halted (R128, "no Core step is enabled in STATE Halted"). Safe. -/
  | halted
  /-- Raised by `coreStep` in STATE Faulted (R135, "no Core step is enabled in it"). Safe. -/
  | faulted
  /-- Raised by `coreStep` in STATE Ended (R26, "Ended is terminal"). Safe. -/
  | ended
  /-- Raised by `coreStep` in STATE Idle: the driver never advances again (R93, I10). Safe. -/
  | idle
  /-- Raised by `coreStep` in STATE AwaitingInput with INSLOT empty: the driver sends nothing (R92, I9). Safe. -/
  | awaitingInput
deriving DecidableEq, Repr

/-- Why `step` refuses. -/
inductive Refusal
  /-- Raised by `exec` alone, for an instruction with no meaning yet: none is left. Safe. -/
  | notModelled (mnemonic : String)
  /-- Raised by `step` when the script's next event is `send(v)` with `v` outside the W-bit range: there is no such event
  (R91, "A driver value outside the W-bit range cannot be sent"; I12, `refuse`). Safe (log 11). -/
  | sendOutOfRange (v : Int)
deriving DecidableEq, Repr

/-- What one stage of the instruction cycle gives (R72): a value and the state it leaves, or a fault raised with its
detail in the state the earlier stages left. -/
inductive Res (α : Type)
  | ok (a : α) (s : State)
  | raised (kind : FaultKind) (detail : Int) (s : State)
deriving DecidableEq, Repr

/-- What the sync `run` transaction returns (R98). -/
inductive RunResult
  | ok (finalMemory outputs : List Int)
  | err (record : FaultRecord)
deriving DecidableEq, Repr

/-- The machine right after reset (R35, R151): a fresh instance with the default parameters (log 4), the empty
image and no inputs (log 5; R152, "An empty image (L = 0) is admitted"), and no driver event pending. -/
def State.reset : State :=
  { params := Params.default
    ip := 0
    rb := 0
    mem := []
    memLen := 0
    tag := .running
    fault := none
    inq := []
    outq := []
    inslot := none
    status := none
    script := []
    received := [] }

end Sys2Proof.Machine
end

