-- ==== Sys2Proof/Machine/Ops.lean ====
section
/-! DEFINITION. The named operations: codes, memory, the address decoder, sequencing of stages, fault entry. -/

namespace Sys2Proof.Machine

/-! ## Codes (R25, R132) -/

/-- The number of a STATE value (R25). -/
def Tag.code : Tag → Nat
  | .running => 0
  | .awaitingInput => 1
  | .halted => 2
  | .faulted => 3
  | .idle => 4
  | .ended => 5

/-- The code of a fault kind (R132). -/
def FaultKind.code : FaultKind → Nat
  | .invalidOpcode => 1
  | .invalidAddress => 2
  | .invalidWriteTarget => 3
  | .starvedInput => 4
  | .overflow => 5
  | .capacityExceeded => 6

/-! ## The memory array (R24) -/

/-- `M[a]`: the word listed at `a`, or 0 (R24). -/
def Memory.read : Memory → Nat → Int
  | [], _ => 0
  | (b, w) :: m, a => if a = b then w else Memory.read m a

/-- `M[a] <- v` (R45), keeping the canonical form: writing 0 removes the entry. -/
def Memory.write : Memory → Nat → Int → Memory
  | [], a, v => if v = 0 then [] else [(a, v)]
  | (b, w) :: m, a, v =>
    if a < b then (if v = 0 then (b, w) :: m else (a, v) :: (b, w) :: m)
    else if a = b then (if v = 0 then m else (a, v) :: m)
    else (b, w) :: Memory.write m a v

/-- The canonical form: addresses strictly rising, no entry 0. -/
abbrev Memory.wf (m : Memory) : Prop :=
  m.Pairwise (fun c d => c.1 < d.1) ∧ ∀ c ∈ m, c.2 ≠ 0

/-- The words of a list at `a`, `a + 1`, … (R152): the canonical memory that holds them and 0 elsewhere. -/
def Memory.ofWords : Nat → List Int → Memory
  | _, [] => []
  | a, v :: vs => if v = 0 then Memory.ofWords (a + 1) vs else (a, v) :: Memory.ofWords (a + 1) vs

/-- Write a list of words at `a`, `a + 1`, …. -/
def Memory.writeWords : Memory → Nat → List Int → Memory
  | m, _, [] => m
  | m, a, v :: vs => Memory.writeWords (m.write a v) (a + 1) vs

/-- `snapshot()` of R56: `[M[0], M[1], ..., M[MemLen - 1]]`. -/
def State.snapshot (s : State) : List Int := (List.range s.memLen).map s.mem.read

/-! ## The address decoder (R42 to R46) -/

/-- `MemLen <- max(MemLen, a + 1)` (R46). -/
def State.grow (s : State) (a : Nat) : State := { s with memLen := max s.memLen (a + 1) }

/-- What an access at `a` raises, if anything: InvalidAddress below 0 (R42), then CapacityExceeded at or above a
finite MEM_WORDS (R43). -/
def accessFault (p : Params) (a : Int) : Option FaultKind :=
  if a < 0 then some .invalidAddress
  else
    match p.memWords with
    | none => none
    | some cap => if (cap : Int) ≤ a then some .capacityExceeded else none

/-- `MemRead(a)` (R44). -/
def memRead (a : Int) (s : State) : Res Int :=
  match accessFault s.params a with
  | some k => .raised k a s
  | none => .ok (s.mem.read a.toNat) (s.grow a.toNat)

/-- `MemWrite(a, v)` (R45). -/
def memWrite (a : Int) (v : Int) (s : State) : Res Unit :=
  match accessFault s.params a with
  | some k => .raised k a s
  | none => .ok () { s.grow a.toNat with mem := s.mem.write a.toNat v }

/-! ## Sequencing -/

/-- The next stage runs on what the earlier one gave; a raised fault pre-empts every later stage (R74). -/
def Res.andThen {α β : Type} (r : Res α) (f : α → State → Res β) : Res β :=
  match r with
  | .ok a s => f a s
  | .raised k d s => .raised k d s

/-- `IP <- ip0 + len` (R73), while IP still is ip0. -/
def State.advance (s : State) (len : Nat) : State := { s with ip := s.ip + len }

/-! ## Status posting and fault entry -/

/-- `post(s)` (R103). -/
def State.post (s : State) (st : Status) : State := { s with status := some st }

/-- Fault entry, `raise K(detail)` (R133): FAULT gets the kind, ip0 and the detail; STATE becomes Faulted; in stream mode
the record is posted (R103). Nothing else changes (R134). IP still is ip0 at every stage that can raise. There is no
return from it (R135). -/
def takeFault (kind : FaultKind) (detail : Int) (s : State) : State :=
  { s with
    fault := some ⟨kind, s.ip, detail⟩
    tag := .faulted
    status :=
      match s.params.ioMode with
      | .sync => s.status
      | .stream => some (.faulted ⟨kind, s.ip, detail⟩) }

/-- The end of an instruction: its last state, or fault entry (R72, R133). -/
def finish (r : Res Unit) : Host.Outcome State Fault Refusal :=
  match r with
  | .ok _ s => .next s
  | .raised k d s => .next (takeFault k d s)

end Sys2Proof.Machine
end

