-- ==== Sys2Proof/Machine/Flags.lean ====
section
/-! DEFINITION. Result checks. The CORE has no status flags (10_state.md R31): what other machines put in flags is
here the overflow check of a result (R13) and the 0/1 word a compare writes (R115, R116). -/

namespace Sys2Proof.Machine

/-- `wrap_W(v)` (R12): the value congruent to `v` modulo 2^W that fits in W bits. -/
def wrapWord (W : Nat) (v : Int) : Int := Int.bmod v (2 ^ W)

/-- `checked(v, op)` (R13): the exact result where it fits; else wrapped, or Overflow with the opcode as detail. -/
def checked (v : Int) (op : Nat) (s : State) : Res Int :=
  if Fits s.params.wordBits v then .ok v s
  else
    match s.params.overflow with
    | .wrap => .ok (wrapWord s.params.wordBits v) s
    | .fault => .raised .overflow (op : Int) s

/-- `(a < b) ? 1 : 0`, signed (R115, R118). -/
def lessThanWord (a b : Int) : Int := if a < b then 1 else 0

/-- `(a = b) ? 1 : 0` (R116). -/
def equalsWord (a b : Int) : Int := if a = b then 1 else 0

end Sys2Proof.Machine
end

