-- ==== Sys2Proof/Machine/Operands.lean ====
section
/-! DEFINITION. The addressing-mode resolver (30_encoding.md R66 to R71). -/

namespace Sys2Proof.Machine

/-- `raw_i`: the raw word of parameter `i` of the instruction at IP (R17, R66). -/
def rawParam (s : State) (i : Nat) : Int := s.mem.read (s.ip + i)

/-- The address a raw word names in a mode: the raw word itself (Position, R67, R70), or the raw word plus RB (Relative,
R69, R70), exact and never reduced modulo 2^W (R71). In Immediate mode it names none (R68, R70). -/
def effAddr (m : Mode) (raw rb : Int) : Option Int :=
  match m with
  | .position => some raw
  | .immediate => none
  | .relative => some (raw + rb)

/-- `ResolveRead(m, raw)`: the word at the address (R67, R69), or the raw word itself with no access (R68). -/
def resolveRead (m : Mode) (raw : Int) (s : State) : Res Int :=
  match effAddr m raw s.rb with
  | none => .ok raw s
  | some a => memRead a s

/-- `ResolveWrite(m, raw)` for parameter `i` (R70): Immediate is no target; the address is checked here, before the
result is computed, and memory is not yet touched. -/
def resolveWrite (i : Nat) (m : Mode) (raw : Int) (s : State) : Res Int :=
  match effAddr m raw s.rb with
  | none => .raised .invalidWriteTarget (i : Int) s
  | some a =>
    match accessFault s.params a with
    | some k => .raised k a s
    | none => .ok a s

/-- Fetch the raw word of parameter `i` (R66), then resolve it as a read parameter (R72). -/
def readParam (i : Nat) (m : Mode) (s : State) : Res Int :=
  (memRead ((s.ip + i : Nat) : Int) s).andThen (resolveRead m)

/-- Fetch the raw word of parameter `i` (R66), then resolve it as the write parameter (R70, R72). -/
def writeParam (i : Nat) (m : Mode) (s : State) : Res Int :=
  (memRead ((s.ip + i : Nat) : Int) s).andThen (resolveWrite i m)

end Sys2Proof.Machine
end

