-- ==== Sys2Proof/Machine/Arithmetic.lean ====
section
/-! DEFINITION. The three-parameter cycle and opcodes 1 and 2 (30_encoding.md R72, 40_arithmetic.md R80 to R83). -/

namespace Sys2Proof.Machine

/-- The cycle of an instruction `a, b, dst` after its word is decoded (R72, R74): parameters 1 and 2 read, parameter 3
resolved as the target, the result computed, written as the single write, IP advanced by 4. -/
def binaryToDst (m₁ m₂ m₃ : Mode) (result : Int → Int → State → Res Int) (s : State) :
    Host.Outcome State Fault Refusal :=
  finish <|
    (readParam 1 m₁ s).andThen fun a s₁ =>
    (readParam 2 m₂ s₁).andThen fun b s₂ =>
    (writeParam 3 m₃ s₂).andThen fun dst s₃ =>
    (result a b s₃).andThen fun r s₄ =>
    (memWrite dst r s₄).andThen fun _ s₅ => .ok () (s₅.advance 4)

/-- add (R80): `dst := checked(a + b, 1)`. -/
def execAdd (a b dst : Mode) (s : State) : Host.Outcome State Fault Refusal :=
  binaryToDst a b dst (fun x y => checked (x + y) 1) s

/-- mul (R81): `dst := checked(a * b, 2)`. -/
def execMul (a b dst : Mode) (s : State) : Host.Outcome State Fault Refusal :=
  binaryToDst a b dst (fun x y => checked (x * y) 2) s

end Sys2Proof.Machine
end

