-- ==== Sys2Proof/Machine/Compare.lean ====
section
/-! DEFINITION. Opcodes 7 and 8 (43_compare.md R115 to R119). -/

namespace Sys2Proof.Machine

/-- less-than (R115): `dst := (a < b) ? 1 : 0`; never Overflow. -/
def execLessThan (a b dst : Mode) (s : State) : Host.Outcome State Fault Refusal :=
  binaryToDst a b dst (fun x y => .ok (lessThanWord x y)) s

/-- equals (R116): `dst := (a = b) ? 1 : 0`; never Overflow. -/
def execEquals (a b dst : Mode) (s : State) : Host.Outcome State Fault Refusal :=
  binaryToDst a b dst (fun x y => .ok (equalsWord x y)) s

end Sys2Proof.Machine
end

