-- ==== Sys2Proof/Machine/Halt.lean ====
section
/-! DEFINITION. Opcode 99 (45_halt.md R125 to R128). -/

namespace Sys2Proof.Machine

/-- halt (R125): STATE becomes Halted and, in stream mode, the snapshot is posted. IP does not advance (R127). -/
def execHalt (s : State) : Host.Outcome State Fault Refusal :=
  let t : State := { s with tag := .halted }
  match s.params.ioMode with
  | .sync => .next t
  | .stream => .next (t.post (.terminated s.snapshot))

end Sys2Proof.Machine
end

