-- ==== Sys2Proof/Machine/Channel.lean ====
section
/-! DEFINITION. The channel controllers as the Core sees them (41_io.md R87, R96, R97, R104, R105). -/

namespace Sys2Proof.Machine

/-- What `ChanTake()` returns (R87). -/
inductive Taken
  /-- A value, consumed: the state without it. -/
  | value (v : Int) (s : State)
  /-- Sync controller, no value left. -/
  | starve
  /-- Stream controller, slot empty. -/
  | wait
deriving DecidableEq, Repr

/-- `ChanTake()`: the oldest value of INQ (R96), or the value in INSLOT (R104). -/
def chanTake (s : State) : Taken :=
  match s.params.ioMode with
  | .sync =>
    match s.inq with
    | [] => .starve
    | v :: rest => .value v { s with inq := rest }
  | .stream =>
    match s.inslot with
    | none => .wait
    | some v => .value v { s with inslot := none }

/-- `ChanPut(v)`: append to OUTQ (R97), or post Output(v) and pause in Idle (R105). -/
def chanPut (v : Int) (s : State) : State :=
  match s.params.ioMode with
  | .sync => { s with outq := s.outq ++ [v] }
  | .stream => { s.post (.output v) with tag := .idle }

end Sys2Proof.Machine
end

