-- ==== Sys2Proof/Machine/InputOutput.lean ====
section
/-! DEFINITION. Opcodes 3 and 4 (41_io.md R85, R86). -/

namespace Sys2Proof.Machine

/-- The operation of opcode 3 with its target resolved (R85): write the value taken and advance by 2; or raise
StarvedInput(0); or wait in AwaitingInput with IP and M unchanged. -/
def inputTo (dst : Int) (s : State) : Res Unit :=
  match chanTake s with
  | .value v t => (memWrite dst v t).andThen fun _ u => .ok () (u.advance 2)
  | .starve => .raised .starvedInput 0 s
  | .wait => .ok () { s with tag := .awaitingInput }

/-- input (R85): the target is resolved before the channel is asked. -/
def execInput (dst : Mode) (s : State) : Host.Outcome State Fault Refusal :=
  finish <| (writeParam 1 dst s).andThen inputTo

/-- output (R86): IP advances by 2 before the value is put, so that resuming does not emit it again. -/
def execOutput (a : Mode) (s : State) : Host.Outcome State Fault Refusal :=
  finish <| (readParam 1 a s).andThen fun v t => .ok () (chanPut v (t.advance 2))

end Sys2Proof.Machine
end

