-- ==== Sys2Proof/Machine/Jump.lean ====
section
/-! DEFINITION. Opcodes 5 and 6 (42_jump.md R110 to R114). -/

namespace Sys2Proof.Machine

/-- A taken jump (R112): a negative target raises InvalidAddress(target) and leaves IP; else IP is the target. -/
def jumpTo (target : Int) (s : State) : Res Unit :=
  if target < 0 then .raised .invalidAddress target s else .ok () { s with ip := target.toNat }

/-- The cycle of an instruction `cond, target`: both parameters read, then the jump if the test holds of cond, else the
default advance by 3. -/
def jumpWhen (taken : Int → Bool) (m₁ m₂ : Mode) (s : State) : Host.Outcome State Fault Refusal :=
  finish <|
    (readParam 1 m₁ s).andThen fun cond s₁ =>
    (readParam 2 m₂ s₁).andThen fun target s₂ =>
    if taken cond then jumpTo target s₂ else .ok () (s₂.advance 3)

/-- jump-if-true (R110): taken when cond is not 0. -/
def execJumpIfTrue (cond target : Mode) (s : State) : Host.Outcome State Fault Refusal :=
  jumpWhen (fun c => decide (c ≠ 0)) cond target s

/-- jump-if-false (R111): taken when cond is 0. -/
def execJumpIfFalse (cond target : Mode) (s : State) : Host.Outcome State Fault Refusal :=
  jumpWhen (fun c => decide (c = 0)) cond target s

end Sys2Proof.Machine
end

