-- ==== Sys2Proof/Machine/RelativeBase.lean ====
section
/-! DEFINITION. Opcode 9 (44_relative_base.md R120 to R122). -/

namespace Sys2Proof.Machine

/-- adjust-base (R120): `RB <- checked(RB + a, 9)`; the operand is resolved with the old RB. -/
def execAdjustBase (a : Mode) (s : State) : Host.Outcome State Fault Refusal :=
  finish <|
    (readParam 1 a s).andThen fun v s₁ =>
    (checked (s₁.rb + v) 9 s₁).andThen fun r s₂ => .ok () ({ s₂ with rb := r }.advance 2)

end Sys2Proof.Machine
end

