-- ==== Sys2Proof/Machine/Dispatch.lean ====
section
/-! DEFINITION. The opcode multiplexer (30_encoding.md R63, R75): one arm per instruction. -/

namespace Sys2Proof.Machine

/-- `Execute_op` with its parameter fetches and resolution (R72), selected by the opcode alone (R75). -/
def exec (i : Instr) (s : State) : Host.Outcome State Fault Refusal :=
  match i with
  | .add a b dst => Sys2Proof.Machine.execAdd a b dst s
  | .mul a b dst => Sys2Proof.Machine.execMul a b dst s
  | .input dst => Sys2Proof.Machine.execInput dst s
  | .output a => Sys2Proof.Machine.execOutput a s
  | .jumpIfTrue cond target => Sys2Proof.Machine.execJumpIfTrue cond target s
  | .jumpIfFalse cond target => Sys2Proof.Machine.execJumpIfFalse cond target s
  | .lessThan a b dst => Sys2Proof.Machine.execLessThan a b dst s
  | .equals a b dst => Sys2Proof.Machine.execEquals a b dst s
  | .adjustBase a => Sys2Proof.Machine.execAdjustBase a s
  | .halt => Sys2Proof.Machine.execHalt s

end Sys2Proof.Machine
end

