-- ==== Sys2Proof/Machine/Cycle.lean ====
section
/-! DEFINITION. The Core's own step: fetch, decode, execute (30_encoding.md R72), and the wake (41_io.md R89). -/

namespace Sys2Proof.Machine

/-- Stages 1 and 2 of R74: fetch the instruction word at IP with a MemRead (R47), then decode it; a word that is no
instruction raises InvalidOpcode with the word as detail (R57, R62, R64). -/
def fetchDecode (s : State) : Res Instr :=
  (memRead (s.ip : Int) s).andThen fun w t =>
    match decode w with
    | .ok i => .ok i t
    | .error _ => .raised .invalidOpcode w t

/-- CoreStep (R72): one instruction, or the fault of its fetch or decode. -/
def instructionStep (s : State) : Host.Outcome State Fault Refusal :=
  match fetchDecode s with
  | .ok i t => exec i t
  | .raised k d t => .next (takeFault k d t)

/-- The wake from AwaitingInput (R89): with the slot full, STATE becomes Running and nothing else changes; with it
empty the Core waits (R92). -/
def wakeStep (s : State) : Host.Outcome State Fault Refusal :=
  match s.inslot with
  | some _ => .next { s with tag := .running }
  | none => .fault .awaitingInput

/-- A Core step is enabled in Running (R72) and in AwaitingInput with INSLOT full (R89), and nowhere else (R26). -/
def coreEnabled (s : State) : Bool :=
  match s.tag with
  | .running => true
  | .awaitingInput => s.inslot.isSome
  | .halted => false
  | .faulted => false
  | .idle => false
  | .ended => false

/-- One step of the Core, or the name of the state it is stuck in. -/
def coreStep (s : State) : Host.Outcome State Fault Refusal :=
  match s.tag with
  | .running => instructionStep s
  | .awaitingInput => wakeStep s
  | .halted => .fault .halted
  | .faulted => .fault .faulted
  | .idle => .fault .idle
  | .ended => .fault .ended

end Sys2Proof.Machine
end

