-- ==== Sys2Proof/WellFormed.lean ====
section
/-! DEFINITION. What a value handed to the machine must satisfy: an instruction that exists at a width, the parameters,
a program image and an input sequence (00_scope.md R6, R8; 70_reset_and_hazards.md R152; 41_io.md R91). -/

namespace Sys2Proof

/-- An instruction exists at width W when its instruction word is a Word (R6, R57, R79). -/
abbrev Instr.WellFormed (W : Nat) (i : Instr) : Prop := Fits W (encode i)

/-- An assembly item is well formed when its instruction is, it has as many raw words as the instruction has
parameters, and every word of it fits (R57, R63, R79). -/
abbrev AsmItem.WellFormed (W : Nat) : AsmItem → Prop
  | .instr i raws => i.WellFormed W ∧ raws.length = i.nparams ∧ ∀ v ∈ raws, Fits W v
  | .word v => Fits W v

/-- The parameters: W ≥ 2 (R6). -/
abbrev Params.WellFormed (p : Params) : Prop := 2 ≤ p.wordBits

/-- Every word of a list fits in W bits (R91, R152). -/
abbrev WordsFit (W : Nat) (ws : List Int) : Prop := ∀ v ∈ ws, Fits W v

/-- The image is no longer than a finite capacity (R152: refused "when MEM_WORDS is finite and `L > MEM_WORDS`"). -/
def lengthFits (memWords : Option Nat) (n : Nat) : Bool :=
  match memWords with
  | none => true
  | some cap => decide (n ≤ cap)

/-- An image that can be loaded (R152, R108). -/
abbrev ImageOk (p : Params) (image : List Int) : Prop :=
  WordsFit p.wordBits image ∧ lengthFits p.memWords image.length = true

end Sys2Proof
end

