-- ==== Sys2Proof/Machine/Driver.lean ====
section
/-! DEFINITION. The Driver: construction (70_reset_and_hazards.md R150 to R154), the events of stream mode (41_io.md R101,
R102, R106), and the result of the sync `run` (R98). -/

namespace Sys2Proof.Machine

/-! ## Construction -/

/-- What every construction sets (R35, R152), but for STATE and the controllers' own state. -/
def freshState (p : Params) (image : List Int) : State :=
  { State.reset with params := p, mem := Memory.ofWords 0 image, memLen := image.length }

/-- Construct a sync instance (R152, R153): refused, and no instance exists, when the image cannot be loaded (R152), an
input is no Word (R91), W is below 2 (R6) or the parameters name the other discipline. -/
def constructSync (p : Params) (image inputs : List Int) : Option State :=
  if p.ioMode = .sync ∧ p.WellFormed ∧ ImageOk p image ∧ WordsFit p.wordBits inputs then
    some { freshState p image with inq := inputs, tag := .running }
  else none

/-- Construct a stream instance (R152, R154), with the driver's turns pending (log 7). -/
def constructStream (p : Params) (image : List Int) (script : List Turn) : Option State :=
  if p.ioMode = .stream ∧ p.WellFormed ∧ ImageOk p image then
    some { freshState p image with tag := .idle, script := script }
  else none

/-! ## The events of stream mode -/

/-- What a driver's attempt at an event gives. -/
inductive DriverResult
  /-- The event happened. -/
  | done (s : State)
  /-- The event is not enabled: the driver waits. -/
  | notEnabled
  /-- There is no such event. -/
  | refused (r : Refusal)
deriving DecidableEq, Repr

/-- `send(v)` (R101): enabled exactly when INSLOT is empty, in every STATE; fills the slot. -/
def driverSend (v : Int) (s : State) : DriverResult :=
  if Fits s.params.wordBits v then
    match s.inslot with
    | none => .done { s with inslot := some v }
    | some _ => .notEnabled
  else .refused (.sendOutOfRange v)

/-- `advance` (R102): enabled when STATUS is empty and STATE is Idle, where it starts the Core, or Ended, where it posts
End and changes nothing else. -/
def driverAdvance (s : State) : DriverResult :=
  match s.status, s.tag with
  | none, .idle => .done { s with tag := .running }
  | none, .ended => .done (s.post .endOfStream)
  | _, _ => .notEnabled

/-- Whether a status is a final one (R106): Terminated or Faulted. -/
def Status.isFinal : Status → Bool
  | .output _ => false
  | .terminated _ => true
  | .faulted _ => true
  | .endOfStream => false

/-- `take` (R106): enabled exactly when STATUS is full; the driver receives the status, STATUS is emptied, and after a
final status STATE is Ended. -/
def driverTake (s : State) : DriverResult :=
  match s.status with
  | none => .notEnabled
  | some st =>
    .done { s with
      status := none
      received := s.received ++ [st]
      tag := if st.isFinal then .ended else s.tag }

/-- One event of the driver. The events exist in stream mode only (R10). -/
def driverStep (e : DriverEvent) (s : State) : DriverResult :=
  match s.params.ioMode with
  | .sync => .notEnabled
  | .stream =>
    match e with
    | .send v => driverSend v s
    | .advance => driverAdvance s
    | .take => driverTake s

/-! ## The result of `run` -/

/-- What `run` returns in a state, if it returns there (R98). On a fault the outputs are not part of it (D17). -/
def runResult (s : State) : Option RunResult :=
  match s.tag with
  | .halted => some (.ok s.snapshot s.outq)
  | .faulted =>
    match s.fault with
    | some r => some (.err r)
    | none => none
  | _ => none

end Sys2Proof.Machine
end

