-- ==== Sys2Proof/Machine/Step.lean ====
section
/-! DEFINITION. One step of the whole machine: the Core's or the Driver's (00_scope.md R14, R15). -/

namespace Sys2Proof.Machine

/-- One atomic transition of one agent (R14). The script says which agent moves (log 7): with no turn pending, the
Core; with a Core turn next, the Core, a turn it cannot use being passed; with a driver event next, the driver if the
event is enabled, else the driver waits and the Core moves. -/
def step (s : State) : Host.Outcome State Fault Refusal :=
  match s.script with
  | [] => coreStep s
  | .core :: rest =>
    if coreEnabled s then coreStep { s with script := rest } else .next { s with script := rest }
  | .driver e :: rest =>
    match driverStep e s with
    | .done t => .next { t with script := rest }
    | .notEnabled => coreStep s
    | .refused r => .refused r

/-- `s` with the instruction whose bits are `w` stored where `step` fetches next, at IP, and the next turn the Core's in
STATE Running (log 5, log 13): it stands for the load of a program. -/
def State.withFetchWord (s : State) (nbits w : Nat) : State :=
  { s with
    mem := s.mem.writeWords s.ip (tableWords s.params.wordBits nbits w)
    memLen := max s.memLen (s.ip + longestInstr)
    tag := .running
    script := .core :: s.script }

end Sys2Proof.Machine
end

