-- ==== Sys2Proof/Machine/Run.lean ====
section
/-! DEFINITION. Whole runs with a bound on the number of steps: the sync `run` transaction (41_io.md R98) and the stream
driver of R109. The bound is the model's own (log 16): a run the bound cuts short gives `none`. -/

namespace Sys2Proof.Machine

/-- `while STATE = Running: CoreStep`, at most `fuel` steps: the first state that is not Running (R98). -/
def runToEnd : Nat → State → Option State
  | 0, s => if s.tag = .running then none else some s
  | fuel + 1, s =>
    if s.tag = .running then
      match step s with
      | .next t => runToEnd fuel t
      | .fault _ => none
      | .refused _ => none
    else some s

/-- `run(image, inputs)` (R98): construct, step to the end, return the result of the end state. -/
def runSync (fuel : Nat) (p : Params) (image inputs : List Int) : Option RunResult :=
  ((constructSync p image inputs).bind (runToEnd fuel)).bind runResult

/-- What the model's stream driver for R109 does next (one of the schedules that rule allows: DESIGN CHOICE, log 16), and the
inputs it then has left: send the next input when INSLOT is empty,
else take a status that is there, else advance an idle Core, else leave the turn to the Core. -/
def nextDrive (inputs : List Int) (s : State) : Turn × List Int :=
  match inputs, s.inslot with
  | v :: rest, none => (.driver (.send v), rest)
  | _, _ =>
    match s.status, s.tag with
    | some _, _ => (.driver .take, inputs)
    | none, .idle => (.driver .advance, inputs)
    | none, _ => (.core, inputs)

/-- The model's stream driver for R109, at most `fuel` turns (log 16): it stops when it has taken the final status
and gives all the statuses it took. -/
def drive : Nat → List Int → State → Option (List Status)
  | 0, _, s => if s.tag = .ended then some s.received else none
  | fuel + 1, inputs, s =>
    if s.tag = .ended then some s.received
    else
      match step { s with script := [(nextDrive inputs s).1] } with
      | .next t => drive fuel (nextDrive inputs s).2 t
      | .fault _ => none
      | .refused _ => none

/-- The inputs left and the state after `turns` turns of the same driver, whether or not it has ended (log 16). -/
def driveState : Nat → List Int → State → Option (List Int × State)
  | 0, inputs, s => some (inputs, s)
  | turns + 1, inputs, s =>
    match step { s with script := [(nextDrive inputs s).1] } with
    | .next t => driveState turns (nextDrive inputs s).2 t
    | .fault _ => none
    | .refused _ => none

end Sys2Proof.Machine
end

