-- ==== Sys2Proof/Safety.lean ====
section
/-! DEFINITION. What claims are stated in: when an operand is readable or a target writable, which fault an instruction
raises first (60_exceptions.md R137), what a complete instruction leaves, and the invariant of every reachable state
(10_state.md R33). Written from the rules without the machine's own operations, but for reading one word (`Memory.read`), the
address of a parameter (`effAddr`), its raw word (`rawParam`) and the snapshot. -/

namespace Sys2Proof.Machine

/-! ## Parameters of the instruction at IP -/

/-- An address at which an access succeeds: not negative (R42) and below a finite capacity (R43). -/
def InRange (p : Params) (a : Int) : Bool :=
  decide (0 ≤ a) &&
    match p.memWords with
    | none => true
    | some cap => decide (a < (cap : Int))

/-- The address of parameter `i` in mode `m` (R67, R69, R70), if the mode names one. -/
def paramAddr (s : State) (i : Nat) (m : Mode) : Option Int := effAddr m (rawParam s i) s.rb

/-- The raw word of parameter `i` can be fetched (R66). -/
def rawInRange (s : State) (i : Nat) : Bool := InRange s.params ((s.ip + i : Nat) : Int)

/-- Read parameter `i` resolves without a fault (R66 to R69). -/
def readable (s : State) (i : Nat) (m : Mode) : Bool :=
  rawInRange s i &&
    match paramAddr s i m with
    | none => true
    | some a => InRange s.params a

/-- Write parameter `i` resolves without a fault (R66, R70). -/
def writable (s : State) (i : Nat) (m : Mode) : Bool :=
  rawInRange s i &&
    match paramAddr s i m with
    | none => false
    | some a => InRange s.params a

/-- The value of read parameter `i`: the raw word (R68), or the word at its address (R67, R69). -/
def operand (s : State) (i : Nat) (m : Mode) : Int :=
  match paramAddr s i m with
  | none => rawParam s i
  | some a => s.mem.read a.toNat

/-- The address write parameter `i` stores to, as a natural number (R70); 0 where there is none, a case `writable`
rules out. -/
def target (s : State) (i : Nat) (m : Mode) : Nat :=
  match paramAddr s i m with
  | none => 0
  | some a => a.toNat

/-- MemLen after accesses at the listed addresses (R46). -/
def grownTo (n : Nat) (as : List Nat) : Nat := as.foldl (fun l a => max l (a + 1)) n

/-- The addresses that parameter `i` makes an instruction access: its raw word's, and the address it names. -/
def touched (s : State) (i : Nat) (m : Mode) : List Nat :=
  match paramAddr s i m with
  | none => [s.ip + i]
  | some a => [s.ip + i, a.toNat]

/-! ## Faults in the order of R137 -/

/-- The fault of an access at `a`, if any, with its detail (R42, R43, R132). -/
def accessFaultAt (p : Params) (a : Int) : Option (FaultKind × Int) :=
  if a < 0 then some (.invalidAddress, a)
  else if InRange p a then none
  else some (.capacityExceeded, a)

/-- The fault of the raw fetch of parameter `i` (R137 stage 3). -/
def rawFault (s : State) (i : Nat) : Option (FaultKind × Int) := accessFaultAt s.params ((s.ip + i : Nat) : Int)

/-- The first fault of read parameter `i`: its raw fetch, then its operand's access (R137 stage 3). -/
def readFault (s : State) (i : Nat) (m : Mode) : Option (FaultKind × Int) :=
  (rawFault s i).or ((paramAddr s i m).bind (accessFaultAt s.params))

/-- The first fault of write parameter `i`: its raw fetch, then InvalidWriteTarget, then its address (R137 stage 3). -/
def writeFault (s : State) (i : Nat) (m : Mode) : Option (FaultKind × Int) :=
  (rawFault s i).or
    (match paramAddr s i m with
     | none => some (.invalidWriteTarget, (i : Int))
     | some a => accessFaultAt s.params a)

/-- Overflow of an exact result (R13, R131, R137 stage 4). -/
def overflowFault (p : Params) (v : Int) (op : Nat) : Option (FaultKind × Int) :=
  if p.overflow = .fault ∧ ¬ Fits p.wordBits v then some (.overflow, (op : Int)) else none

/-- The three parameters of opcodes 1, 2, 7, 8, in order. -/
def threeFault (s : State) (a b dst : Mode) : Option (FaultKind × Int) :=
  ((readFault s 1 a).or (readFault s 2 b)).or (writeFault s 3 dst)

/-- A jump that is taken to a negative target (R112, R137 stage 4). -/
def jumpFault (isTaken : Bool) (dest : Int) : Option (FaultKind × Int) :=
  if isTaken ∧ dest < 0 then some (.invalidAddress, dest) else none

/-- StarvedInput (R96, R99, R132): sync mode with no input left. -/
def starvedFault (s : State) : Option (FaultKind × Int) :=
  if s.params.ioMode = .sync ∧ s.inq = [] then some (.starvedInput, 0) else none

/-- The fault an instruction raises after its word is decoded, the first in the order of R137 stages 3 and 4, with the
detail of R132; none when it raises none. -/
def firstFault (i : Instr) (s : State) : Option (FaultKind × Int) :=
  match i with
  | .add a b dst => (threeFault s a b dst).or (overflowFault s.params (operand s 1 a + operand s 2 b) 1)
  | .mul a b dst => (threeFault s a b dst).or (overflowFault s.params (operand s 1 a * operand s 2 b) 2)
  | .input dst => (writeFault s 1 dst).or (starvedFault s)
  | .output a => readFault s 1 a
  | .jumpIfTrue c t =>
    ((readFault s 1 c).or (readFault s 2 t)).or (jumpFault (decide (operand s 1 c ≠ 0)) (operand s 2 t))
  | .jumpIfFalse c t =>
    ((readFault s 1 c).or (readFault s 2 t)).or (jumpFault (decide (operand s 1 c = 0)) (operand s 2 t))
  | .lessThan a b dst => threeFault s a b dst
  | .equals a b dst => threeFault s a b dst
  | .adjustBase a => (readFault s 1 a).or (overflowFault s.params (s.rb + operand s 1 a) 9)
  | .halt => none

/-- An instruction that runs to its end in a state: it raises no fault. -/
abbrev Safe (i : Instr) (s : State) : Prop := firstFault i s = none

/-- A state just after the fault entry of R133 from `s`, but for MemLen: FAULT records the kind, the instruction's
address and the detail; STATE is Faulted; in stream mode the record is posted; nothing else differs (R134). -/
def faultEntry (s : State) (kind : FaultKind) (detail : Int) (memLen : Nat) : State :=
  { s with
    memLen := memLen
    tag := .faulted
    fault := some ⟨kind, s.ip, detail⟩
    status := if s.params.ioMode = .stream then some (.faulted ⟨kind, s.ip, detail⟩) else s.status }

/-! ## The invariant -/

/-- Every word the memory lists is at an address below MemLen and fits (R6, R24, R33). -/
abbrev MemoryOk (s : State) : Prop :=
  s.mem.wf ∧ ∀ c ∈ s.mem, c.1 < s.memLen ∧ Fits s.params.wordBits c.2

/-- Every value in the channels fits (R91). -/
abbrev ChannelsFit (s : State) : Prop :=
  WordsFit s.params.wordBits s.inq ∧ WordsFit s.params.wordBits s.outq ∧ WordsFit s.params.wordBits s.inslot.toList

/-- What a discipline leaves unused (R25, R28, R29, R30): in sync mode the slots stay empty and STATE is Running, Halted
or Faulted; in stream mode the queues stay empty. -/
def disciplineOk (s : State) : Bool :=
  match s.params.ioMode with
  | .sync =>
    decide (s.inslot = none ∧ s.status = none ∧ s.received = []) &&
      decide (s.tag = .running ∨ s.tag = .halted ∨ s.tag = .faulted)
  | .stream => decide (s.inq = [] ∧ s.outq = [])

/-- Whether a status is an output. -/
def Status.isOutput : Status → Bool
  | .output _ => true
  | .terminated _ => false
  | .faulted _ => false
  | .endOfStream => false

/-- What FAULT and STATUS hold in each STATE (R27, R30, R102, R103, R105, R106, R125, R133). -/
def statusOk (s : State) : Bool :=
  match s.tag with
  | .running => decide (s.fault = none ∧ s.status = none)
  | .awaitingInput => decide (s.fault = none ∧ s.status = none)
  | .idle => decide (s.fault = none) && s.status.toList.all Status.isOutput
  | .halted =>
    decide (s.fault = none) &&
      decide (s.status = if s.params.ioMode = .stream then some (.terminated s.snapshot) else none)
  | .faulted =>
    match s.fault with
    | none => false
    | some r =>
      decide (r.ip = s.ip) &&
        decide (s.status = if s.params.ioMode = .stream then some (.faulted r) else none)
  | .ended => decide (s.status = none ∨ s.status = some .endOfStream)

/-- A finished stream (R107): outputs, then exactly one final status, then any number of End. -/
def endedStream : List Status → Bool
  | [] => false
  | .output _ :: rest => endedStream rest
  | .terminated _ :: rest => decide (∀ st ∈ rest, st = .endOfStream)
  | .faulted _ :: rest => decide (∀ st ∈ rest, st = .endOfStream)
  | .endOfStream :: _ => false

/-- What the driver has taken (R107): outputs alone until STATE is Ended, then a finished stream. -/
def receivedOk (s : State) : Bool :=
  if s.tag = .ended then endedStream s.received else s.received.all Status.isOutput

/-- The invariant of every reachable state. -/
abbrev Inv (s : State) : Prop :=
  s.params.WellFormed ∧ MemoryOk s ∧ lengthFits s.params.memWords s.memLen = true ∧ Fits s.params.wordBits s.rb ∧
    ChannelsFit s ∧ disciplineOk s = true ∧ statusOk s = true ∧ receivedOk s = true

end Sys2Proof.Machine
end

