-- ==== Sys2Proof/Certificates/Slice0/Obligations.lean ====
section
/-! DEFINITION. The statements for the provers. A rule marked `[decision: see … D<n>]` or `[derived: …]` is the spec's own
inference (00_scope.md R19; log 6); a statement that rests on one has basis 'derived' and its docstring names the decision.
Throughout, a next state whose MemLen covers fetched words rests on D4 (log 6), a fault entry as a next state is log 10, and
where a statement asks for `script = []`, no driver event is pending (log 7), so the step is the Core's. -/

open Sys2Proof Sys2Proof.Machine Host

/-! ## Encoding -/

/-- Words written out in decimal by R58 and R59, those of 95_test_vectors.md V11 to V19 among them, decode to the opcode
and the mode digits they are written with. That digit 1 is Immediate and digit 2 is Relative is R60's, from general knowledge
(PRESUMED, log 14). (R78's own example word disagrees with R59 and R79: log 19.) -/
def Obligations.SampleWordsDecode : Prop :=
  decode 1002 = .ok (.mul .position .immediate .position) ∧
  decode 3 = .ok (.input .position) ∧
  decode 21101 = .ok (.add .immediate .immediate .relative) ∧
  decode 21001 = .ok (.add .position .immediate .relative) ∧
  decode 1105 = .ok (.jumpIfTrue .immediate .immediate) ∧
  decode 1006 = .ok (.jumpIfFalse .position .immediate) ∧
  decode 21107 = .ok (.lessThan .immediate .immediate .relative) ∧
  decode 2208 = .ok (.equals .relative .relative .position) ∧
  decode 204 = .ok (.output .relative) ∧
  decode 109 = .ok (.adjustBase .immediate) ∧
  decode 199 = .ok .halt ∧
  decode 1199999 = .ok .halt ∧
  decode 42 = .error (.unknownOpcode 42) ∧
  decode (-1) = .error .negativeWord ∧
  decode 301 = .error (.badModeDigit 1 3) ∧
  decode 100 = .error (.unknownOpcode 0)

/-- R76 (derived there; D5, D6, D7): a word is an instruction exactly when it is not negative, its low two digits are an
opcode of the map of R63, and each mode digit its opcode uses is 0, 1 or 2. -/
def Obligations.DecoderAcceptsExactlyTheMap : Prop :=
  ∀ w : Int, (∃ i, decode w = .ok i) ↔
    0 ≤ w ∧ ∃ n : Nat,
      (w % 100, n) ∈ [((1 : Int), 3), (2, 3), (3, 1), (4, 1), (5, 2), (6, 2), (7, 3), (8, 3), (9, 1), (99, 0)] ∧
        ∀ k : Nat, k < n → w / 10 ^ (k + 2) % 10 ≤ 2

/-- R58, R59: the opcode of a decoded word is `w mod 100`; the mode of parameter k + 1 is decimal digit k + 2; and there
is one mode for each parameter of the opcode. That the digits 1 and 2 are Immediate and Relative (`Mode.digit`) is no word
of the source: R60 has it from general knowledge (PRESUMED, log 14). -/
def Obligations.DecodedFieldsAreDecimalDigits : Prop :=
  ∀ (w : Int) (i : Instr), decode w = .ok i →
    (i.opcode : Int) = w % 100 ∧ i.modes.length = i.nparams ∧
      ∀ (k : Nat) (m : Mode), i.modes[k]? = some m → (m.digit : Int) = w / 10 ^ (k + 2) % 10

/-- R79 and R61 (D6): a word decodes to an instruction exactly when it is the instruction's encoded word, with any digits
above the mode digits its opcode uses. With the digits 0 this is the round trip of every instruction. Which digit encodes
which mode is R60's (PRESUMED, log 14). -/
def Obligations.DecodeInvertsEncode : Prop :=
  ∀ (w : Int) (i : Instr), decode w = .ok i ↔ ∃ x : Nat, w = encode i + 10 ^ (i.nparams + 2) * (x : Int)

/-- R79 (D19), R152 (D22), R72: a loaded listing whose first item is a well-formed instruction starts by running that
instruction, with the raw words of the item as its raw parameters. -/
def Obligations.AssembledListingRunsItsFirstItem : Prop :=
  ∀ (p : Params) (i : Instr) (raws inputs : List Int) (rest : List AsmItem) (s : State),
    (AsmItem.instr i raws).WellFormed p.wordBits →
    constructSync p (assemble (.instr i raws :: rest)) inputs = some s →
    step s = exec i s ∧ ∀ k, k < i.nparams → rawParam s (k + 1) = raws.getD k 0

/-- R78 (D19): a label denotes the address of the next word: the number of words that the lines before it make; and a
listing whose labels resolve makes exactly as many words as its lines do. (The first definition of a name
counts, log 20; a data word's value may be a label, log 22.) -/
def Obligations.LabelsDenoteTheNextWord : Prop :=
  (∀ (name : String) (before after : List AsmLine), AsmLine.label name ∉ before →
    labelAddr name 0 (before ++ .label name :: after) = some (before.map AsmLine.size).sum) ∧
  ∀ (listing : List AsmLine) (image : List Int), assembleListing listing = some image →
    image.length = (listing.map AsmLine.size).sum

/-! ## Reset and load -/

/-- R35, R151: the reset state is a fresh instance: IP = 0, RB = 0, memory and FAULT and the controllers empty, STATE
Running. The discipline `sync` is the model's choice (log 4), the empty image too (log 5). -/
def Obligations.ResetIsAFreshInstance : Prop :=
  State.reset.ip = 0 ∧ State.reset.rb = 0 ∧ (∀ a, State.reset.mem.read a = 0) ∧ State.reset.memLen = 0 ∧
    State.reset.tag = .running ∧ State.reset.fault = none ∧ State.reset.inq = [] ∧ State.reset.outq = [] ∧
    State.reset.inslot = none ∧ State.reset.status = none ∧
    State.reset.params = { wordBits := 64, overflow := .fault, memWords := none, ioMode := .sync }

/-- R35, R152 (D21, D22), R153: what a sync construction gives: the image then zeros, its length, the registers at 0,
the inputs in INQ, STATE Running, all else empty. -/
def Obligations.SyncConstructionGivesAFreshInstance : Prop :=
  ∀ (p : Params) (image inputs : List Int), p.ioMode = .sync → 2 ≤ p.wordBits →
    (∀ v ∈ image, Fits p.wordBits v) → (∀ cap, p.memWords = some cap → image.length ≤ cap) →
    (∀ v ∈ inputs, Fits p.wordBits v) →
    ∃ s, constructSync p image inputs = some s ∧ s.params = p ∧ s.ip = 0 ∧ s.rb = 0 ∧
      (∀ a, s.mem.read a = image.getD a 0) ∧ s.memLen = image.length ∧ s.tag = .running ∧ s.fault = none ∧
      s.inq = inputs ∧ s.outq = [] ∧ s.inslot = none ∧ s.status = none

/-- R35, R152, R154 (D15, D21, D22): what a stream construction gives: as in sync mode, but STATE Idle and both slots
empty; the driver's pending turns are the ones given (log 7). -/
def Obligations.StreamConstructionGivesAFreshInstance : Prop :=
  ∀ (p : Params) (image : List Int) (script : List Turn), p.ioMode = .stream → 2 ≤ p.wordBits →
    (∀ v ∈ image, Fits p.wordBits v) → (∀ cap, p.memWords = some cap → image.length ≤ cap) →
    ∃ s, constructStream p image script = some s ∧ s.params = p ∧ s.ip = 0 ∧ s.rb = 0 ∧
      (∀ a, s.mem.read a = image.getD a 0) ∧ s.memLen = image.length ∧ s.tag = .idle ∧ s.fault = none ∧
      s.inq = [] ∧ s.outq = [] ∧ s.inslot = none ∧ s.status = none ∧ s.script = script

/-- R152, R91 (D22, D26): a load is refused, and no instance exists, when an image word does not fit W bits, when the
image exceeds a finite capacity, or (sync) when an input does not fit. -/
def Obligations.LoadRefusesWhatDoesNotFit : Prop :=
  ∀ (p : Params) (image inputs : List Int) (script : List Turn),
    (((∃ v ∈ image, ¬ Fits p.wordBits v) ∨ (∃ cap, p.memWords = some cap ∧ cap < image.length)) →
      constructSync p image inputs = none ∧ constructStream p image script = none) ∧
    ((∃ v ∈ inputs, ¬ Fits p.wordBits v) → constructSync p image inputs = none)

/-! ## Memory -/

/-- R42, R44: a MemRead below 0 raises InvalidAddress with the address; at or above a finite capacity CapacityExceeded
with the address; else it gives the word and changes only MemLen, to max(MemLen, a + 1). -/
def Obligations.MemReadChecksThenGrows : Prop :=
  ∀ (a : Int) (s : State),
    (a < 0 → memRead a s = .raised .invalidAddress a s) ∧
    (∀ cap : Nat, 0 ≤ a → s.params.memWords = some cap → (cap : Int) ≤ a →
      memRead a s = .raised .capacityExceeded a s) ∧
    (0 ≤ a → (∀ cap : Nat, s.params.memWords = some cap → a < (cap : Int)) →
      memRead a s = .ok (s.mem.read a.toNat) { s with memLen := max s.memLen (a.toNat + 1) })

/-- R42, R45: a MemWrite makes the same checks; where it is made, M[a] reads as the word written, every other address
reads as before, MemLen grows over a, and nothing else changes. That memory is canonical before and after is the model's
form (DEDUCED, log 2). -/
def Obligations.MemWriteStoresOneWord : Prop :=
  ∀ (a v : Int) (s : State), s.mem.wf →
    (a < 0 → memWrite a v s = .raised .invalidAddress a s) ∧
    (∀ cap : Nat, 0 ≤ a → s.params.memWords = some cap → (cap : Int) ≤ a →
      memWrite a v s = .raised .capacityExceeded a s) ∧
    (0 ≤ a → (∀ cap : Nat, s.params.memWords = some cap → a < (cap : Int)) →
      ∃ m : Memory, memWrite a v s = .ok () { s with mem := m, memLen := max s.memLen (a.toNat + 1) } ∧
        m.read a.toNat = v ∧ (∀ b : Nat, b ≠ a.toNat → m.read b = s.mem.read b) ∧ m.wf)

/-- The model's canonical form (log 2): two canonical memories in which every address reads the same are equal data. -/
def Obligations.CanonicalMemoryIsDeterminedByItsReads : Prop :=
  ∀ m m' : Memory, m.wf → m'.wf → (∀ a, m.read a = m'.read a) → m = m'

/-- R56: the snapshot has MemLen words, and its word at a is M[a]; halt delivers it with Terminated in stream mode, and
`run` returns it as the final memory in sync mode. -/
def Obligations.SnapshotListsTheMemorySequence : Prop :=
  ∀ s : State, s.snapshot.length = s.memLen ∧ (∀ a, a < s.memLen → s.snapshot[a]? = some (s.mem.read a)) ∧
    ∃ t, exec .halt s = .next t ∧
      (s.params.ioMode = .stream → t.status = some (.terminated s.snapshot)) ∧
      (s.params.ioMode = .sync → runResult t = some (.ok s.snapshot s.outq))

/-- R55 (D23), R53: after an add that runs to its end, a fetch at the address it stored to gives the word it stored, the
instruction's own words and the next instruction included; and IP is the address after the instruction as fetched. -/
def Obligations.NextFetchSeesTheStore : Prop :=
  ∀ (s : State) (a b dst : Mode), s.mem.wf → Safe (.add a b dst) s →
    Fits s.params.wordBits (operand s 1 a + operand s 2 b) →
    ∃ t, exec (.add a b dst) s = .next t ∧ t.ip = s.ip + 4 ∧
      ∃ u, memRead (target s 3 dst : Int) t = .ok (operand s 1 a + operand s 2 b) u

/-! ## Operands -/

/-- R67, R68, R69: a read parameter in Position mode is the word at its raw value, in Relative mode the word at the exact
sum of its raw value and RB, each InvalidAddress with that address when it is negative; in Immediate mode it is the
raw value, with no access. -/
def Obligations.ReadParametersResolveByMode : Prop :=
  ∀ (raw : Int) (s : State),
    resolveRead .position raw s = memRead raw s ∧
    (raw < 0 → resolveRead .position raw s = .raised .invalidAddress raw s) ∧
    resolveRead .immediate raw s = .ok raw s ∧
    resolveRead .relative raw s = memRead (raw + s.rb) s ∧
    (raw + s.rb < 0 → resolveRead .relative raw s = .raised .invalidAddress (raw + s.rb) s)

/-- R70 (D10), R71 (D8): a write parameter in Immediate mode raises InvalidWriteTarget with its index; else it is the raw
value, or the exact sum of the raw value and RB, checked as an access is and not yet accessed: the state is
unchanged. -/
def Obligations.WriteParametersResolveToAddresses : Prop :=
  ∀ (i : Nat) (raw : Int) (s : State),
    resolveWrite i .immediate raw s = .raised .invalidWriteTarget (i : Int) s ∧
    ∀ (m : Mode) (d : Int), (m = .position ∧ d = raw) ∨ (m = .relative ∧ d = raw + s.rb) →
      (d < 0 → resolveWrite i m raw s = .raised .invalidAddress d s) ∧
      (∀ cap : Nat, 0 ≤ d → s.params.memWords = some cap → (cap : Int) ≤ d →
        resolveWrite i m raw s = .raised .capacityExceeded d s) ∧
      (0 ≤ d → (∀ cap : Nat, s.params.memWords = some cap → d < (cap : Int)) →
        resolveWrite i m raw s = .ok d s)

/-- R123 (derived there): an input through Relative mode at base RB and offset k stores what an input through Position
mode at address RB + k stores: with the same channel, from states that differ in the parameter's raw word only, both
complete, take the same value and leave memories that agree wherever the raw words are not read. -/
def Obligations.RelativeTargetEqualsShiftedPosition : Prop :=
  ∀ (s s' : State), s' = { s with mem := s.mem.write (s.ip + 1) (rawParam s 1 + s.rb) } → s.mem.wf →
    Safe (.input .relative) s → (s.params.ioMode = .stream → s.inslot ≠ none) →
    ∃ t t', exec (.input .relative) s = .next t ∧ exec (.input .position) s' = .next t' ∧
      t.ip = t'.ip ∧ t.memLen = t'.memLen ∧ t.inq = t'.inq ∧ t.inslot = t'.inslot ∧
      t.mem.read (target s 1 .relative) = t'.mem.read (target s 1 .relative) ∧
      ∀ a, a ≠ s.ip + 1 → t.mem.read a = t'.mem.read a

/-! ## What each instruction does -/

/-- R80, R81 (D2): add and mul, with their parameters resolving and the exact result fitting in W bits, store it at the
target, grow MemLen over what they touch, advance IP by 4 and change nothing else. -/
def Obligations.AddAndMulStoreTheExactResult : Prop :=
  ∀ (s : State) (a b dst : Mode), readable s 1 a = true → readable s 2 b = true → writable s 3 dst = true →
    (Fits s.params.wordBits (operand s 1 a + operand s 2 b) →
      exec (.add a b dst) s = .next { s with
        mem := s.mem.write (target s 3 dst) (operand s 1 a + operand s 2 b)
        memLen := grownTo s.memLen (touched s 1 a ++ touched s 2 b ++ touched s 3 dst)
        ip := s.ip + 4 }) ∧
    (Fits s.params.wordBits (operand s 1 a * operand s 2 b) →
      exec (.mul a b dst) s = .next { s with
        mem := s.mem.write (target s 3 dst) (operand s 1 a * operand s 2 b)
        memLen := grownTo s.memLen (touched s 1 a ++ touched s 2 b ++ touched s 3 dst)
        ip := s.ip + 4 })

/-- R7, R12, R13 (D2): under OVERFLOW_MODE = wrap, and with their parameters resolving, add and mul complete whatever the
result: what they store fits in W bits and is congruent to the exact result modulo 2^W. -/
def Obligations.WrapModeStoresTheReducedResult : Prop :=
  ∀ (s : State) (a b dst : Mode), 1 ≤ s.params.wordBits → s.params.overflow = .wrap →
    readable s 1 a = true → readable s 2 b = true → writable s 3 dst = true →
    (∃ r : Int, Fits s.params.wordBits r ∧ r ≡ operand s 1 a + operand s 2 b [ZMOD 2 ^ s.params.wordBits] ∧
      exec (.add a b dst) s = .next { s with
        mem := s.mem.write (target s 3 dst) r
        memLen := grownTo s.memLen (touched s 1 a ++ touched s 2 b ++ touched s 3 dst)
        ip := s.ip + 4 }) ∧
    (∃ r : Int, Fits s.params.wordBits r ∧ r ≡ operand s 1 a * operand s 2 b [ZMOD 2 ^ s.params.wordBits] ∧
      exec (.mul a b dst) s = .next { s with
        mem := s.mem.write (target s 3 dst) r
        memLen := grownTo s.memLen (touched s 1 a ++ touched s 2 b ++ touched s 3 dst)
        ip := s.ip + 4 })

/-- R13, R131, R132 (D2): under OVERFLOW_MODE = fault, and with the parameters resolving, a result of opcode 1, 2 or 9
outside W bits raises Overflow with the opcode as detail, and nothing else is changed but MemLen grown. -/
def Obligations.OverflowRaisesWithTheOpcode : Prop :=
  ∀ (s : State) (a b dst : Mode), s.params.overflow = .fault → readable s 1 a = true →
    (readable s 2 b = true → writable s 3 dst = true →
      ¬ Fits s.params.wordBits (operand s 1 a + operand s 2 b) →
      ∃ n, s.memLen ≤ n ∧ exec (.add a b dst) s = .next (faultEntry s .overflow 1 n)) ∧
    (readable s 2 b = true → writable s 3 dst = true →
      ¬ Fits s.params.wordBits (operand s 1 a * operand s 2 b) →
      ∃ n, s.memLen ≤ n ∧ exec (.mul a b dst) s = .next (faultEntry s .overflow 2 n)) ∧
    (¬ Fits s.params.wordBits (s.rb + operand s 1 a) →
      ∃ n, s.memLen ≤ n ∧ exec (.adjustBase a) s = .next (faultEntry s .overflow 9 n))

/-- R115, R116, R117, R118: with their parameters resolving, less-than and equals store exactly 1 or 0 at the target, the
signed comparison of their operands, for all operand pairs; IP advances by 4; they never overflow, and change nothing else
but MemLen, grown over what they touch, fetched raw words included (D4, log 6). -/
def Obligations.ComparesStoreZeroOrOne : Prop :=
  ∀ (s : State) (a b dst : Mode), readable s 1 a = true → readable s 2 b = true → writable s 3 dst = true →
    exec (.lessThan a b dst) s = .next { s with
      mem := s.mem.write (target s 3 dst) (if operand s 1 a < operand s 2 b then 1 else 0)
      memLen := grownTo s.memLen (touched s 1 a ++ touched s 2 b ++ touched s 3 dst)
      ip := s.ip + 4 } ∧
    exec (.equals a b dst) s = .next { s with
      mem := s.mem.write (target s 3 dst) (if operand s 1 a = operand s 2 b then 1 else 0)
      memLen := grownTo s.memLen (touched s 1 a ++ touched s 2 b ++ touched s 3 dst)
      ip := s.ip + 4 }

/-- R96, R85 (D11): input in sync mode, with its target resolving: the first element of INQ is removed, written to the
target and IP advances by 2; with INQ empty it raises StarvedInput with detail 0, entered as R133 says (D14, log 10). MemLen
covers the fetched raw word (D4, log 6). -/
def Obligations.SyncInputTakesTheFirstOrStarves : Prop :=
  ∀ (s : State) (dst : Mode), s.params.ioMode = .sync → writable s 1 dst = true →
    (∀ (v : Int) (rest : List Int), s.inq = v :: rest →
      exec (.input dst) s = .next { s with
        mem := s.mem.write (target s 1 dst) v
        memLen := grownTo s.memLen (touched s 1 dst)
        inq := rest
        ip := s.ip + 2 }) ∧
    (s.inq = [] → exec (.input dst) s = .next (faultEntry s .starvedInput 0 (max s.memLen (s.ip + 2))))

/-- R104, R85 (D11): input in stream mode, with its target resolving: a full INSLOT is emptied and its value written, IP
advancing by 2; with INSLOT empty STATE becomes AwaitingInput and neither M nor IP is written. MemLen covers the fetched raw
word, also when the Core waits (D4, log 6). -/
def Obligations.StreamInputTakesTheSlotOrWaits : Prop :=
  ∀ (s : State) (dst : Mode), s.params.ioMode = .stream → writable s 1 dst = true →
    (∀ v : Int, s.inslot = some v →
      exec (.input dst) s = .next { s with
        mem := s.mem.write (target s 1 dst) v
        memLen := grownTo s.memLen (touched s 1 dst)
        inslot := none
        ip := s.ip + 2 }) ∧
    (s.inslot = none →
      exec (.input dst) s = .next { s with memLen := max s.memLen (s.ip + 2), tag := .awaitingInput })

/-- R97, R105, R86 (D12): output, with its operand resolving: in sync mode the value is appended to OUTQ and STATE stays;
in stream mode Output(v) is posted and STATE becomes Idle, where with no driver event pending the Core takes no further step
(`.fault .idle` is the model's answer there, log 9); IP advances by 2 (D12, log 6), and MemLen covers the fetched raw word
(D4, log 6). -/
def Obligations.OutputEmitsItsOperand : Prop :=
  ∀ (s : State) (a : Mode), readable s 1 a = true →
    (s.params.ioMode = .sync →
      exec (.output a) s = .next { s with
        memLen := grownTo s.memLen (touched s 1 a)
        outq := s.outq ++ [operand s 1 a]
        ip := s.ip + 2 }) ∧
    (s.params.ioMode = .stream →
      exec (.output a) s = .next { s with
        memLen := grownTo s.memLen (touched s 1 a)
        status := some (.output (operand s 1 a))
        tag := .idle
        ip := s.ip + 2 } ∧
      ∀ t, exec (.output a) s = .next t → t.script = [] → step t = .fault .idle)

/-- R110, R111 (D9): with both parameters resolving, jump-if-true sets IP to its target when cond is not 0, and
jump-if-false when cond is 0, if the target is not negative; otherwise, whatever the target, IP advances by 3. -/
def Obligations.JumpsSetIpOrFallThrough : Prop :=
  ∀ (s : State) (c t : Mode), readable s 1 c = true → readable s 2 t = true →
    let n := grownTo s.memLen (touched s 1 c ++ touched s 2 t)
    (operand s 1 c ≠ 0 → 0 ≤ operand s 2 t →
      exec (.jumpIfTrue c t) s = .next { s with memLen := n, ip := (operand s 2 t).toNat }) ∧
    (operand s 1 c = 0 → exec (.jumpIfTrue c t) s = .next { s with memLen := n, ip := s.ip + 3 }) ∧
    (operand s 1 c = 0 → 0 ≤ operand s 2 t →
      exec (.jumpIfFalse c t) s = .next { s with memLen := n, ip := (operand s 2 t).toNat }) ∧
    (operand s 1 c ≠ 0 → exec (.jumpIfFalse c t) s = .next { s with memLen := n, ip := s.ip + 3 })

/-- R112 (D9): a jump that is taken to a negative target raises InvalidAddress with the target and leaves IP. -/
def Obligations.TakenNegativeJumpFaults : Prop :=
  ∀ (s : State) (c t : Mode), readable s 1 c = true → readable s 2 t = true → operand s 2 t < 0 →
    let n := grownTo s.memLen (touched s 1 c ++ touched s 2 t)
    (operand s 1 c ≠ 0 → exec (.jumpIfTrue c t) s = .next (faultEntry s .invalidAddress (operand s 2 t) n)) ∧
    (operand s 1 c = 0 → exec (.jumpIfFalse c t) s = .next (faultEntry s .invalidAddress (operand s 2 t) n))

/-- R120 (D2): adjust-base, with its operand resolving under the old RB, adds the operand to RB when the sum fits; under
OVERFLOW_MODE = wrap, with its operand resolving, it completes whatever the sum, with a fitting value congruent to it; IP
advances by 2. -/
def Obligations.AdjustBaseAddsToRb : Prop :=
  ∀ (s : State) (a : Mode), readable s 1 a = true →
    (Fits s.params.wordBits (s.rb + operand s 1 a) →
      exec (.adjustBase a) s = .next { s with
        memLen := grownTo s.memLen (touched s 1 a)
        rb := s.rb + operand s 1 a
        ip := s.ip + 2 }) ∧
    (1 ≤ s.params.wordBits → s.params.overflow = .wrap →
      ∃ r : Int, Fits s.params.wordBits r ∧ r ≡ s.rb + operand s 1 a [ZMOD 2 ^ s.params.wordBits] ∧
        exec (.adjustBase a) s = .next { s with
          memLen := grownTo s.memLen (touched s 1 a)
          rb := r
          ip := s.ip + 2 })

/-- R125, R127 (D13): halt makes STATE Halted and, in stream mode, posts Terminated with the snapshot; IP and all else
stay. -/
def Obligations.HaltStopsWithTheSnapshot : Prop :=
  ∀ s : State,
    (s.params.ioMode = .sync → exec .halt s = .next { s with tag := .halted }) ∧
    (s.params.ioMode = .stream →
      exec .halt s = .next { s with
        tag := .halted
        status := some (.terminated ((List.range s.memLen).map s.mem.read)) })

/-! ## Faults -/

/-- R137, R133, R134 (D10, D11, D14): after decode, an instruction raises exactly the first fault in the order of R137,
with its detail, and enters it with nothing changed but MemLen grown; and where no fault is first it completes with no
fault. -/
def Obligations.InstructionsRaiseExactlyTheFirstFault : Prop :=
  ∀ (i : Instr) (s : State),
    (∀ (k : FaultKind) (d : Int), firstFault i s = some (k, d) →
      ∃ n, s.memLen ≤ n ∧ exec i s = .next (faultEntry s k d n)) ∧
    (firstFault i s = none →
      ∃ t, exec i s = .next t ∧ t.fault = s.fault ∧ (t.tag = .faulted → s.tag = .faulted))

/-- R70, R85 (D10, D11): with the earlier parameters resolving, an Immediate write parameter raises InvalidWriteTarget with
its index, whatever the result would be and whether or not an input is there. -/
def Obligations.ImmediateTargetFaults : Prop :=
  ∀ (s : State) (a b : Mode) (i : Instr),
    (readable s 1 a = true → readable s 2 b = true → rawInRange s 3 = true →
      i = .add a b .immediate ∨ i = .mul a b .immediate ∨ i = .lessThan a b .immediate ∨ i = .equals a b .immediate →
      ∃ n, s.memLen ≤ n ∧ exec i s = .next (faultEntry s .invalidWriteTarget 3 n)) ∧
    (rawInRange s 1 = true →
      exec (.input .immediate) s = .next (faultEntry s .invalidWriteTarget 1 (max s.memLen (s.ip + 2))))

/-- R42, R67, R69, R70, R137 (D10): an instruction whose first parameter has a negative address raises InvalidAddress
with that address, before anything of its later parameters, its result or the channel. -/
def Obligations.NegativeFirstAddressFaults : Prop :=
  ∀ (s : State) (i : Instr) (m : Mode) (a : Int), i.modes.head? = some m → rawInRange s 1 = true →
    paramAddr s 1 m = some a → a < 0 →
    exec i s = .next (faultEntry s .invalidAddress a (max s.memLen (s.ip + 2)))

/-- R64: a fetched word that is not negative and whose low two digits match no known opcode raises InvalidOpcode with the
word as detail: a fatal error, not a silent no-op. The record and its ip are D14, the posted status is D16, MemLen over the
fetched word is D4 (log 6), and that the entry is a next state is log 10. -/
def Obligations.UnknownOpcodeRaisesInvalidOpcode : Prop :=
  ∀ s : State, s.tag = .running → s.script = [] → InRange s.params s.ip = true → 0 ≤ s.mem.read s.ip →
    s.mem.read s.ip % 100 ∉ [(1 : Int), 2, 3, 4, 5, 6, 7, 8, 9, 99] →
    step s = .next (faultEntry s .invalidOpcode (s.mem.read s.ip) (max s.memLen (s.ip + 1)))

/-- R57 (D7), R62 (D5): a fetched word that is negative, or whose opcode uses a mode digit that is 3 to 9, raises
InvalidOpcode with the word as detail before any parameter is fetched (MemLen covers the word alone). -/
def Obligations.NegativeOrBadModeWordRaisesInvalidOpcode : Prop :=
  ∀ s : State, s.tag = .running → s.script = [] → InRange s.params s.ip = true →
    (s.mem.read s.ip < 0 ∨
      ∃ n k : Nat,
        (s.mem.read s.ip % 100, n) ∈
          [((1 : Int), 3), (2, 3), (3, 1), (4, 1), (5, 2), (6, 2), (7, 3), (8, 3), (9, 1)] ∧
        k < n ∧ 3 ≤ s.mem.read s.ip / 10 ^ (k + 2) % 10) →
    step s = .next (faultEntry s .invalidOpcode (s.mem.read s.ip) (max s.memLen (s.ip + 1)))

/-- R43, R47 (D3, D4): with a finite capacity, a fetch of the instruction word at or above it raises CapacityExceeded
with the address, and nothing grows. -/
def Obligations.FetchBeyondCapacityFaults : Prop :=
  ∀ (s : State) (cap : Nat), s.tag = .running → s.script = [] → s.params.memWords = some cap → cap ≤ s.ip →
    step s = .next (faultEntry s .capacityExceeded s.ip s.memLen)

/-- R133, R134 (D14): faults are precise. A Core step from Running that ends Faulted leaves IP, RB, M, the queues, the
input slot and what the driver took as they were; FAULT records the instruction's address; MemLen has not shrunk; and
the status is the record in stream mode and untouched in sync mode. -/
def Obligations.FaultsArePrecise : Prop :=
  ∀ s t : State, s.tag = .running → s.script = [] → step s = .next t → t.tag = .faulted →
    t.ip = s.ip ∧ t.rb = s.rb ∧ t.mem = s.mem ∧ (∀ a, t.mem.read a = s.mem.read a) ∧ s.memLen ≤ t.memLen ∧
      t.inq = s.inq ∧ t.outq = s.outq ∧ t.inslot = s.inslot ∧ t.received = s.received ∧ t.params = s.params ∧
      ∃ r : FaultRecord, t.fault = some r ∧ r.ip = s.ip ∧
        t.status = if s.params.ioMode = .stream then some (.faulted r) else s.status

/-! ## Frames -/

/-- Frame of the instructions that store to parameter 3 (add, mul, less-than, equals): every address but the target's
reads as before; where the parameter names no address, every address does; RB, the channels, the parameters and the
driver's side are unchanged, and MemLen has not shrunk; without a fault FAULT, STATE and STATUS are unchanged, and with
one IP and all of memory are. -/
def Obligations.ThreeParameterStoreFrame : Prop :=
  ∀ (s t : State) (a b dst : Mode) (i : Instr),
    i = .add a b dst ∨ i = .mul a b dst ∨ i = .lessThan a b dst ∨ i = .equals a b dst → exec i s = .next t →
    (∀ d : Int, paramAddr s 3 dst = some d → ∀ x : Nat, (x : Int) ≠ d → t.mem.read x = s.mem.read x) ∧
    (paramAddr s 3 dst = none → ∀ x, t.mem.read x = s.mem.read x) ∧
    t.rb = s.rb ∧ t.inq = s.inq ∧ t.outq = s.outq ∧ t.inslot = s.inslot ∧ t.params = s.params ∧
    t.script = s.script ∧ t.received = s.received ∧ s.memLen ≤ t.memLen ∧
    (t.fault = s.fault ∧ t.tag = s.tag ∧ t.status = s.status ∨ t.tag = .faulted ∧ t.ip = s.ip ∧ t.mem = s.mem)

/-- Frame of input: every address but the target's reads as before (all of them when it waits); RB, OUTQ, the parameters
and the driver's side are unchanged; MemLen has not shrunk; INQ loses at most its first value and only in sync mode,
INSLOT its value and only in stream mode; without a fault FAULT and STATUS stay and STATE stays or becomes AwaitingInput,
and with one IP and all of memory stay. -/
def Obligations.InputFrame : Prop :=
  ∀ (s t : State) (dst : Mode), exec (.input dst) s = .next t →
    (∀ d : Int, paramAddr s 1 dst = some d → ∀ x : Nat, (x : Int) ≠ d → t.mem.read x = s.mem.read x) ∧
    (paramAddr s 1 dst = none → ∀ x, t.mem.read x = s.mem.read x) ∧
    (t.tag = .awaitingInput → s.tag ≠ .awaitingInput → ∀ x, t.mem.read x = s.mem.read x) ∧
    t.rb = s.rb ∧ t.outq = s.outq ∧ t.params = s.params ∧ t.script = s.script ∧ t.received = s.received ∧
    (s.params.ioMode = .sync → t.inslot = s.inslot ∧ (t.inq = s.inq ∨ t.inq = s.inq.tail)) ∧
    (s.params.ioMode = .stream → t.inq = s.inq ∧ (t.inslot = s.inslot ∨ t.inslot = none)) ∧
    s.memLen ≤ t.memLen ∧
    (t.fault = s.fault ∧ t.status = s.status ∧ (t.tag = s.tag ∨ t.tag = .awaitingInput) ∨
      t.tag = .faulted ∧ t.ip = s.ip ∧ t.mem = s.mem)

/-- Frame of the instructions that store nothing (output, the jumps, adjust-base, halt): every address reads as before;
INQ, INSLOT, the parameters and the driver's side are unchanged; RB is unchanged but by adjust-base; OUTQ, unless by an
output in sync mode; MemLen has not shrunk; halt leaves IP, MemLen and FAULT; and the others, without a fault, leave
FAULT, and but for output STATE and STATUS. -/
def Obligations.NonStoringFrame : Prop :=
  ∀ (s t : State) (i : Instr), i.writeParam = none → exec i s = .next t →
    (∀ x, t.mem.read x = s.mem.read x) ∧ t.mem = s.mem ∧ t.inq = s.inq ∧ t.inslot = s.inslot ∧ t.params = s.params ∧
    t.script = s.script ∧ t.received = s.received ∧
    ((∀ m, i ≠ .adjustBase m) → t.rb = s.rb) ∧
    ((∀ m, i ≠ .output m) ∨ s.params.ioMode = .stream → t.outq = s.outq) ∧
    s.memLen ≤ t.memLen ∧ (i = .halt → t.ip = s.ip ∧ t.memLen = s.memLen ∧ t.fault = s.fault) ∧
    (t.fault = s.fault ∧ ((∀ m, i ≠ .output m) → i ≠ .halt → t.tag = s.tag ∧ t.status = s.status) ∨
      t.tag = .faulted ∧ t.ip = s.ip)

/-! ## Rules of the whole machine -/

/-- R72, R55: a step runs the decoded instruction. In STATE Running, where the word at IP can be fetched and decodes to
`i`, a step is `exec i` on the state with MemLen grown over IP: with no turn pending, with a Core turn next (which is
used up), and with a driver event next that is not enabled (the driver waits). The turns are the model's (log 7). -/
def Obligations.StepRunsTheDecodedInstruction : Prop :=
  ∀ (s : State) (i : Instr), s.tag = .running → InRange s.params s.ip = true → decode (s.mem.read s.ip) = .ok i →
    (s.script = [] → step s = exec i { s with memLen := max s.memLen (s.ip + 1) }) ∧
    (∀ rest, s.script = .core :: rest →
      step s = exec i { s with memLen := max s.memLen (s.ip + 1), script := rest }) ∧
    (∀ e rest, s.script = .driver e :: rest → driverStep e s = .notEnabled →
      step s = exec i { s with memLen := max s.memLen (s.ip + 1) })

/-- R122, R20: opcode 9 is the only writer of RB. A step that changes RB is a Core step from Running whose fetched word
decodes to adjust-base. -/
def Obligations.OnlyAdjustBaseWritesRb : Prop :=
  ∀ s t : State, step s = .next t → t.rb ≠ s.rb →
    s.tag = .running ∧ ∃ m, decode (s.mem.read s.ip) = .ok (.adjustBase m)

/-- R23, R33: no step shrinks MemLen. -/
def Obligations.MemLenNeverShrinks : Prop :=
  ∀ s t : State, step s = .next t → s.memLen ≤ t.memLen

/-- R5, R9, R37, R27: no step changes the parameters, and no step clears FAULT or, once STATE is Faulted or Ended,
changes it (D14). -/
def Obligations.ParametersAndFaultAreNeverCleared : Prop :=
  ∀ s t : State, step s = .next t →
    t.params = s.params ∧ (s.fault ≠ none → t.fault ≠ none) ∧ (s.tag = .faulted ∨ s.tag = .ended → t.fault = s.fault)

/-- R26 (D15, D16): STATE changes only as the table says, from states that meet the invariant. -/
def Obligations.StateChangesOnlyByTheTable : Prop :=
  ∀ s t : State, Inv s → step s = .next t → t.tag = s.tag ∨
    (s.tag = .running ∧ t.tag = .awaitingInput ∧ s.params.ioMode = .stream ∧ s.inslot = none) ∨
    (s.tag = .awaitingInput ∧ t.tag = .running ∧ s.inslot ≠ none) ∨
    (s.tag = .running ∧ t.tag = .idle ∧ s.params.ioMode = .stream ∧ ∃ v, t.status = some (.output v)) ∨
    (s.tag = .idle ∧ t.tag = .running ∧ ∃ rest, s.script = .driver .advance :: rest) ∨
    (s.tag = .running ∧ t.tag = .halted ∧ decode (s.mem.read s.ip) = .ok .halt) ∨
    (s.tag = .running ∧ t.tag = .faulted ∧ t.fault ≠ none) ∨
    ((s.tag = .halted ∨ s.tag = .faulted) ∧ t.tag = .ended ∧ s.params.ioMode = .stream ∧
      ∃ rest, s.script = .driver .take :: rest)

/-- R33, R24, R27, R30, R107 and the canonical form (log 2): every step keeps the invariant: W ≥ 2; memory canonical, zero
at and above MemLen, every word fitting; MemLen within the capacity; RB and the channels fitting; each discipline's
unused channel empty; FAULT and STATUS as STATE says; and the statuses taken the beginning of a well-ended stream. -/
def Obligations.StepKeepsTheInvariant : Prop :=
  ∀ s t : State, Inv s → step s = .next t → Inv t

/-- The reset state meets the invariant. -/
def Obligations.ResetMeetsTheInvariant : Prop := Inv State.reset

/-- R152, R153, R154: every instance that is constructed meets the invariant. -/
def Obligations.ConstructionsMeetTheInvariant : Prop :=
  ∀ (p : Params) (image inputs : List Int) (script : List Turn) (s : State),
    constructSync p image inputs = some s ∨ constructStream p image script = some s → Inv s

/-- R88: inputs are consumed in the order supplied and outputs emitted in the order put. A step takes at most the oldest
value of INQ, or the value in INSLOT; and it appends at most one value to OUTQ, at its end, or posts at most one
status, into an empty slot (from states that meet the invariant). -/
def Obligations.ChannelsKeepOrder : Prop :=
  ∀ s t : State, Inv s → step s = .next t →
    (t.inq = s.inq ∨ ∃ v, s.inq = v :: t.inq) ∧
    (t.inslot = s.inslot ∨ s.inslot = none ∨ t.inslot = none) ∧
    (t.outq = s.outq ∨ ∃ v, t.outq = s.outq ++ [v]) ∧
    (t.status = s.status ∨ s.status = none ∨ t.status = none ∧ ∃ st, s.status = some st ∧ t.received = s.received ++ [st]) ∧
    (t.received = s.received ∨ ∃ st, s.status = some st ∧ t.received = s.received ++ [st])

/-! ## The driver -/

/-- R101 (derived there), R91 (D26): in stream mode a pending `send(v)` of a Word, in any STATE, fills an empty INSLOT and
changes nothing else. With INSLOT full the driver waits, and that the step is then the Core's is the model's schedule (DESIGN
CHOICE, log 7). A value outside W bits is refused (log 11). -/
def Obligations.SendFillsTheEmptySlot : Prop :=
  ∀ (s : State) (v : Int) (rest : List Turn), s.params.ioMode = .stream → s.script = .driver (.send v) :: rest →
    (Fits s.params.wordBits v → s.inslot = none → step s = .next { s with inslot := some v, script := rest }) ∧
    (Fits s.params.wordBits v → s.inslot ≠ none → step s = coreStep s) ∧
    (¬ Fits s.params.wordBits v → step s = .refused (.sendOutOfRange v))

/-- R102 (D16): in stream mode a pending `advance`, with STATUS empty, makes STATE Idle Running, and in STATE Ended posts
End; nothing else changes. In any other STATE, or with STATUS full, the driver waits, and that the step is then the Core's is
the model's schedule (DESIGN CHOICE, log 7). -/
def Obligations.AdvanceStartsTheCoreOrAnswersEnd : Prop :=
  ∀ (s : State) (rest : List Turn), s.params.ioMode = .stream → s.script = .driver .advance :: rest →
    (s.status = none → s.tag = .idle → step s = .next { s with tag := .running, script := rest }) ∧
    (s.status = none → s.tag = .ended → step s = .next { s with status := some .endOfStream, script := rest }) ∧
    (s.status ≠ none ∨ (s.tag ≠ .idle ∧ s.tag ≠ .ended) → step s = coreStep s)

/-- R106 (D16): in stream mode a pending `take` with STATUS full gives the driver the status and empties the slot; after
Terminated or Faulted STATE is Ended, after another it stays. `received`, the list of what the driver took, is the model's
own (DESIGN CHOICE, log 8). With STATUS empty the driver waits, and that the step is then the Core's is the model's schedule
(DESIGN CHOICE, log 7). -/
def Obligations.TakeDeliversTheStatus : Prop :=
  ∀ (s : State) (rest : List Turn), s.params.ioMode = .stream → s.script = .driver .take :: rest →
    (∀ snap, s.status = some (.terminated snap) →
      step s = .next { s with
        status := none, received := s.received ++ [.terminated snap], tag := .ended, script := rest }) ∧
    (∀ r, s.status = some (.faulted r) →
      step s = .next { s with
        status := none, received := s.received ++ [.faulted r], tag := .ended, script := rest }) ∧
    (∀ st, s.status = some st → (∃ v, st = .output v) ∨ st = .endOfStream →
      step s = .next { s with status := none, received := s.received ++ [st], script := rest }) ∧
    (s.status = none → step s = coreStep s)

/-- R138: the driver's events change only the controller state and never the Core's IP, RB or M (nor MemLen, FAULT or the
sync queues). That in sync mode no driver event is enabled is read from R10, which gives the three events to stream mode
(DEDUCED, log 21). -/
def Obligations.DriverEventsLeaveTheCoreAlone : Prop :=
  ∀ (e : DriverEvent) (s : State),
    (∀ t, driverStep e s = .done t →
      t.ip = s.ip ∧ t.rb = s.rb ∧ t.mem = s.mem ∧ t.memLen = s.memLen ∧ t.fault = s.fault ∧ t.inq = s.inq ∧
        t.outq = s.outq ∧ t.params = s.params) ∧
    (s.params.ioMode = .sync → driverStep e s = .notEnabled)

/-- R89 (D32; the wake is a step of its own, log 15), R104: a Core that waits and is then sent a value ends as if the value
had been there: from a Running stream state whose word is an input with a good target and whose slot is empty, the step waits;
with the slot then filled, the wake and the instruction again give the state of the instruction with the slot filled at
once. -/
def Obligations.WaitingInputResumesAsIfNeverWaited : Prop :=
  ∀ (s : State) (dst : Mode) (v : Int), s.params.ioMode = .stream → s.tag = .running → s.script = [] →
    s.inslot = none → InRange s.params s.ip = true → decode (s.mem.read s.ip) = .ok (.input dst) →
    writable s 1 dst = true →
    ∃ s₁ s₂ t, step s = .next s₁ ∧ s₁.tag = .awaitingInput ∧ s₁.ip = s.ip ∧ s₁.mem = s.mem ∧
      step { s₁ with inslot := some v } = .next s₂ ∧ step s₂ = .next t ∧
      step { s with inslot := some v } = .next t

/-- R128, R135, R26, R92, R93 (D24): with no driver event pending, no step is enabled in Halted, Faulted, Ended and Idle,
nor in AwaitingInput with INSLOT empty: the machine has no next state there, and the model answers a fault named after the
STATE (log 9). -/
def Obligations.TerminalAndWaitingStatesHaveNoStep : Prop :=
  ∀ s : State, s.script = [] →
    (s.tag = .halted → step s = .fault .halted) ∧ (s.tag = .faulted → step s = .fault .faulted) ∧
    (s.tag = .ended → step s = .fault .ended) ∧ (s.tag = .idle → step s = .fault .idle) ∧
    (s.tag = .awaitingInput → s.inslot = none → step s = .fault .awaitingInput)

/-- R158 (derived there): when a value is sent does not matter. A value that lands in the empty slot before a Core step
that is no input, or after it, leaves the same state. -/
def Obligations.SendCommutesWithOtherInstructions : Prop :=
  ∀ (s t : State) (v : Int), s.tag = .running → s.script = [] →
    (∀ dst, decode (s.mem.read s.ip) ≠ .ok (.input dst)) → step s = .next t →
    step { s with inslot := some v } = .next { t with inslot := some v }

/-! ## Whole runs -/

/-- R129: a sync run of any image whose word 0 is a halt word returns the image unchanged and no output. -/
def Obligations.HaltFirstImageIsReturned : Prop :=
  ∀ (p : Params) (image inputs : List Int) (s : State) (fuel : Nat),
    constructSync p image inputs = some s → image.head?.map decode = some (.ok .halt) → 1 ≤ fuel →
    runSync fuel p image inputs = some (.ok image [])

/-- R109 (derived there), first case: if `run(P, X)` returns Ok(mem, outs), the stream driver on P and X takes exactly
Output of each of `outs` in order, then Terminated(mem). The driver is the model's: of the schedules R109 allows it takes the one of
`nextDrive`, and `runSync` and `drive` carry a bound on the turns (DESIGN CHOICE, log 16). -/
def Obligations.StreamingEqualsSynchronousOnSuccess : Prop :=
  ∀ (p : Params) (image inputs mem outs : List Int) (fuel : Nat), p.ioMode = .sync →
    runSync fuel p image inputs = some (.ok mem outs) →
    ∃ (s : State) (n : Nat), constructStream { p with ioMode := .stream } image [] = some s ∧
      drive n inputs s = some (outs.map .output ++ [.terminated mem])

/-- R109 (derived there), second case: if the sync run ends in a fault other than StarvedInput, the stream driver takes
the same outputs as the sync run had put, then Faulted with the same record. The driver is the model's: of the schedules R109 allows it takes the one of
`nextDrive`, and `runToEnd` and `drive` carry a bound on the turns (DESIGN CHOICE, log 16). -/
def Obligations.StreamingEqualsSynchronousOnFault : Prop :=
  ∀ (p : Params) (image inputs : List Int) (s₀ e : State) (r : FaultRecord) (fuel : Nat), p.ioMode = .sync →
    constructSync p image inputs = some s₀ → runToEnd fuel s₀ = some e → runResult e = some (.err r) →
    r.kind ≠ .starvedInput →
    ∃ (s : State) (n : Nat), constructStream { p with ioMode := .stream } image [] = some s ∧
      drive n inputs s = some (e.outq.map .output ++ [.faulted r])

/-- R109 (derived there), third case: if the sync run starves, the stream driver with the same inputs never takes a final
status, however many turns it is given (where the Core then stands is the next statement). The driver is the model's: of the schedules R109 allows it takes the one of
`nextDrive`, and `runSync` and `drive` carry a bound on the turns (DESIGN CHOICE, log 16). -/
def Obligations.StreamNeverEndsWhereSyncStarves : Prop :=
  ∀ (p : Params) (image inputs : List Int) (r : FaultRecord) (fuel : Nat) (s : State), p.ioMode = .sync →
    runSync fuel p image inputs = some (.err r) → r.kind = .starvedInput →
    constructStream { p with ioMode := .stream } image [] = some s →
    ∀ n, drive n inputs s = none

/-- R109 (derived there), third case: if the sync run starves, then from some turn of the stream driver on the inputs are
used up, the Core stands in AwaitingInput with INSLOT and STATUS empty, and the driver has taken exactly the outputs the sync
run had put. The driver is the model's: of the schedules R109 allows it takes the one of `nextDrive`, and `runToEnd` carries a
bound (DESIGN CHOICE, log 16); `received` is the model's own (log 8). -/
def Obligations.StarvedStreamWaitsForEver : Prop :=
  ∀ (p : Params) (image inputs : List Int) (s₀ e s : State) (r : FaultRecord) (fuel : Nat), p.ioMode = .sync →
    constructSync p image inputs = some s₀ → runToEnd fuel s₀ = some e → runResult e = some (.err r) →
    r.kind = .starvedInput → constructStream { p with ioMode := .stream } image [] = some s →
    ∃ n, ∀ k, ∃ t, driveState (n + k) inputs s = some ([], t) ∧ t.tag = .awaitingInput ∧ t.inslot = none ∧
      t.status = none ∧ t.received = e.outq.map .output
end

