-- ==== Sys2Proof/Laws/Memory.lean ====
section
/-! SUPPORT. The memory array: reads after writes, and the canonical form. -/

namespace Sys2Proof.Machine

/-! ## Reading -/

@[simp] theorem Memory.read_nil (a : Nat) : Memory.read [] a = 0 := rfl

theorem Memory.read_cons (b : Nat) (w : Int) (m : Memory) (a : Nat) :
    Memory.read ((b, w) :: m) a = if a = b then w else Memory.read m a := rfl

/-- An address below every listed one reads 0. -/
theorem Memory.read_eq_zero_of_lt {m : Memory} {a : Nat} (h : ∀ c ∈ m, a < c.1) : m.read a = 0 := by
  induction m with
  | nil => rfl
  | cons c m ih =>
    obtain ⟨b, w⟩ := c
    rw [Memory.read_cons, if_neg, ih]
    · exact fun c hc => h c (List.mem_cons_of_mem _ hc)
    · exact Nat.ne_of_lt (h (b, w) (List.mem_cons_self ..))

/-- What a read gives is 0 or a listed word. -/
theorem Memory.read_eq_zero_or_mem (m : Memory) (a : Nat) : m.read a = 0 ∨ (a, m.read a) ∈ m := by
  induction m with
  | nil => exact .inl rfl
  | cons c m ih =>
    obtain ⟨b, w⟩ := c
    rw [Memory.read_cons]
    split
    · next h => exact .inr (by simp [h])
    · exact ih.imp_right (List.mem_cons_of_mem _)

/-! ## Writing -/

theorem Memory.write_nil (a : Nat) (v : Int) : Memory.write [] a v = if v = 0 then [] else [(a, v)] := rfl

theorem Memory.write_cons (b : Nat) (w : Int) (m : Memory) (a : Nat) (v : Int) :
    Memory.write ((b, w) :: m) a v =
      if a < b then (if v = 0 then (b, w) :: m else (a, v) :: (b, w) :: m)
      else if a = b then (if v = 0 then m else (a, v) :: m)
      else (b, w) :: Memory.write m a v := rfl

/-- A write leaves every other address alone. -/
theorem Memory.read_write_of_ne (m : Memory) {a b : Nat} (v : Int) (h : b ≠ a) :
    (m.write a v).read b = m.read b := by
  induction m with
  | nil => rw [Memory.write_nil]; split <;> simp [Memory.read_cons, h]
  | cons c m ih =>
    obtain ⟨x, w⟩ := c
    rw [Memory.write_cons]
    split
    · split <;> simp [Memory.read_cons, h]
    · split
      · next hx => subst hx; split <;> simp [Memory.read_cons, h]
      · simp [Memory.read_cons, ih]

/-- A read after a write to the same address gives the word written. -/
theorem Memory.read_write_same {m : Memory} (hm : Memory.wf m) (a : Nat) (v : Int) : (m.write a v).read a = v := by
  induction m with
  | nil => rw [Memory.write_nil]; split <;> simp_all [Memory.read_cons]
  | cons c m ih =>
    obtain ⟨x, w⟩ := c
    obtain ⟨hp, hz⟩ := hm
    rw [List.pairwise_cons] at hp
    have hm' : Memory.wf m := ⟨hp.2, fun c hc => hz c (List.mem_cons_of_mem _ hc)⟩
    rw [Memory.write_cons]
    split
    · next hlt =>
      split
      · next hv =>
        subst hv
        refine Memory.read_eq_zero_of_lt fun c hc => ?_
        rcases List.mem_cons.mp hc with rfl | hc
        · exact hlt
        · exact lt_trans hlt (hp.1 c hc)
      · simp [Memory.read_cons]
    · next hge =>
      split
      · next hx =>
        subst hx
        split
        · next hv => subst hv; exact Memory.read_eq_zero_of_lt hp.1
        · simp [Memory.read_cons]
      · next hne => rw [Memory.read_cons, if_neg hne, ih hm']

/-- Every cell after a write is an old one or the one written. -/
theorem Memory.mem_write {m : Memory} {a : Nat} {v : Int} {c : Nat × Int} (h : c ∈ m.write a v) :
    c ∈ m ∨ (c = (a, v) ∧ v ≠ 0) := by
  induction m with
  | nil =>
    rw [Memory.write_nil] at h
    split at h <;> simp_all
  | cons d m ih =>
    obtain ⟨x, w⟩ := d
    rw [Memory.write_cons] at h
    repeat' split at h
    all_goals simp only [List.mem_cons] at h ⊢
    · exact .inl h
    · exact h.elim (fun e => .inr ⟨e, by assumption⟩) .inl
    · exact .inl (.inr h)
    · exact h.elim (fun e => .inr ⟨e, by assumption⟩) (fun e => .inl (.inr e))
    · exact h.elim (fun e => .inl (.inl e)) (fun e => (ih e).imp_left .inr)

/-- A write keeps the canonical form. -/
theorem Memory.write_wf {m : Memory} (hm : Memory.wf m) (a : Nat) (v : Int) : (m.write a v).wf := by
  refine ⟨?_, fun c hc => ?_⟩
  · obtain ⟨hp, -⟩ := hm
    induction m with
    | nil => rw [Memory.write_nil]; split <;> simp
    | cons c m ih =>
      obtain ⟨x, w⟩ := c
      have hp' := hp
      rw [List.pairwise_cons] at hp
      rw [Memory.write_cons]
      split
      · next hlt =>
        split
        · exact hp'
        · refine List.pairwise_cons.mpr ⟨fun c hc => ?_, hp'⟩
          rcases List.mem_cons.mp hc with rfl | hc
          · exact hlt
          · exact lt_trans hlt (hp.1 c hc)
      · next hge =>
        split
        · next hx =>
          subst hx
          split
          · exact hp.2
          · exact List.pairwise_cons.mpr ⟨hp.1, hp.2⟩
        · next hne =>
          refine List.pairwise_cons.mpr ⟨fun c hc => ?_, ih hp.2⟩
          rcases Memory.mem_write hc with hc | ⟨rfl, -⟩
          · exact hp.1 c hc
          · exact lt_of_le_of_ne (Nat.le_of_not_lt hge) (Ne.symm hne)
  · rcases Memory.mem_write hc with hc | ⟨rfl, hv⟩
    · exact hm.2 c hc
    · exact hv

/-! ## Images -/

@[simp] theorem Memory.ofWords_nil (a : Nat) : Memory.ofWords a [] = [] := rfl

theorem Memory.ofWords_cons (a : Nat) (v : Int) (vs : List Int) :
    Memory.ofWords a (v :: vs) = if v = 0 then Memory.ofWords (a + 1) vs else (a, v) :: Memory.ofWords (a + 1) vs := rfl

/-- Every cell of an image's memory lies in the image and holds a word of it. -/
theorem Memory.mem_ofWords {a : Nat} {ws : List Int} {c : Nat × Int} (h : c ∈ Memory.ofWords a ws) :
    a ≤ c.1 ∧ c.1 < a + ws.length ∧ c.2 ∈ ws ∧ c.2 ≠ 0 := by
  induction ws generalizing a with
  | nil => simp at h
  | cons v vs ih =>
    have later : c ∈ Memory.ofWords (a + 1) vs →
        a ≤ c.1 ∧ c.1 < a + (v :: vs).length ∧ c.2 ∈ v :: vs ∧ c.2 ≠ 0 := fun hc => by
      obtain ⟨h₁, h₂, h₃, h₄⟩ := ih hc
      simp only [List.length_cons]
      exact ⟨by omega, by omega, List.mem_cons_of_mem _ h₃, h₄⟩
    rw [Memory.ofWords_cons] at h
    split at h
    · exact later h
    · next hv =>
      rcases List.mem_cons.mp h with rfl | hc
      · exact ⟨le_refl _, by simp, by simp, hv⟩
      · exact later hc

/-- An image's memory is canonical. -/
theorem Memory.ofWords_wf (a : Nat) (ws : List Int) : (Memory.ofWords a ws).wf := by
  refine ⟨?_, fun c hc => (Memory.mem_ofWords hc).2.2.2⟩
  induction ws generalizing a with
  | nil => simp
  | cons v vs ih =>
    rw [Memory.ofWords_cons]
    split
    · exact ih _
    · exact List.pairwise_cons.mpr ⟨fun c hc => (Memory.mem_ofWords hc).1, ih _⟩

/-- An image's memory holds the image's words, and 0 after it. -/
theorem Memory.read_ofWords (a k : Nat) (ws : List Int) : (Memory.ofWords a ws).read (a + k) = ws.getD k 0 := by
  induction ws generalizing a k with
  | nil => simp
  | cons v vs ih =>
    have later : ∀ k, (Memory.ofWords (a + 1) vs).read (a + (k + 1)) = vs.getD k 0 := fun k => by
      rw [← ih (a + 1) k]; congr 1; omega
    have first : (Memory.ofWords (a + 1) vs).read a = 0 :=
      Memory.read_eq_zero_of_lt fun c hc => (Memory.mem_ofWords hc).1
    rw [Memory.ofWords_cons]
    cases k with
    | zero => split <;> simp_all [Memory.read_cons]
    | succ k => split <;> simp [Memory.read_cons, later]

/-- Writing a list of words keeps the canonical form. -/
theorem Memory.writeWords_wf {m : Memory} (hm : Memory.wf m) (a : Nat) (ws : List Int) : (m.writeWords a ws).wf := by
  induction ws generalizing m a with
  | nil => exact hm
  | cons v vs ih => exact ih (Memory.write_wf hm a v) _

end Sys2Proof.Machine
end

