-- ==== Sys2Proof/Laws/State.lean ====
section
/-! SUPPORT. One lemma per field per named update of State, each true by definition. -/

namespace Sys2Proof.Machine

/-! ## `grow` -/

@[simp] theorem State.grow_params (s : State) (a : Nat) :
    (s.grow a).params = s.params := rfl
@[simp] theorem State.grow_ip (s : State) (a : Nat) :
    (s.grow a).ip = s.ip := rfl
@[simp] theorem State.grow_rb (s : State) (a : Nat) :
    (s.grow a).rb = s.rb := rfl
@[simp] theorem State.grow_mem (s : State) (a : Nat) :
    (s.grow a).mem = s.mem := rfl
@[simp] theorem State.grow_memLen (s : State) (a : Nat) :
    (s.grow a).memLen = max s.memLen (a + 1) := rfl
@[simp] theorem State.grow_tag (s : State) (a : Nat) :
    (s.grow a).tag = s.tag := rfl
@[simp] theorem State.grow_fault (s : State) (a : Nat) :
    (s.grow a).fault = s.fault := rfl
@[simp] theorem State.grow_inq (s : State) (a : Nat) :
    (s.grow a).inq = s.inq := rfl
@[simp] theorem State.grow_outq (s : State) (a : Nat) :
    (s.grow a).outq = s.outq := rfl
@[simp] theorem State.grow_inslot (s : State) (a : Nat) :
    (s.grow a).inslot = s.inslot := rfl
@[simp] theorem State.grow_status (s : State) (a : Nat) :
    (s.grow a).status = s.status := rfl
@[simp] theorem State.grow_script (s : State) (a : Nat) :
    (s.grow a).script = s.script := rfl
@[simp] theorem State.grow_received (s : State) (a : Nat) :
    (s.grow a).received = s.received := rfl

/-! ## `advance` -/

@[simp] theorem State.advance_params (s : State) (n : Nat) :
    (s.advance n).params = s.params := rfl
@[simp] theorem State.advance_ip (s : State) (n : Nat) :
    (s.advance n).ip = s.ip + n := rfl
@[simp] theorem State.advance_rb (s : State) (n : Nat) :
    (s.advance n).rb = s.rb := rfl
@[simp] theorem State.advance_mem (s : State) (n : Nat) :
    (s.advance n).mem = s.mem := rfl
@[simp] theorem State.advance_memLen (s : State) (n : Nat) :
    (s.advance n).memLen = s.memLen := rfl
@[simp] theorem State.advance_tag (s : State) (n : Nat) :
    (s.advance n).tag = s.tag := rfl
@[simp] theorem State.advance_fault (s : State) (n : Nat) :
    (s.advance n).fault = s.fault := rfl
@[simp] theorem State.advance_inq (s : State) (n : Nat) :
    (s.advance n).inq = s.inq := rfl
@[simp] theorem State.advance_outq (s : State) (n : Nat) :
    (s.advance n).outq = s.outq := rfl
@[simp] theorem State.advance_inslot (s : State) (n : Nat) :
    (s.advance n).inslot = s.inslot := rfl
@[simp] theorem State.advance_status (s : State) (n : Nat) :
    (s.advance n).status = s.status := rfl
@[simp] theorem State.advance_script (s : State) (n : Nat) :
    (s.advance n).script = s.script := rfl
@[simp] theorem State.advance_received (s : State) (n : Nat) :
    (s.advance n).received = s.received := rfl

/-! ## `post` -/

@[simp] theorem State.post_params (s : State) (st : Status) :
    (s.post st).params = s.params := rfl
@[simp] theorem State.post_ip (s : State) (st : Status) :
    (s.post st).ip = s.ip := rfl
@[simp] theorem State.post_rb (s : State) (st : Status) :
    (s.post st).rb = s.rb := rfl
@[simp] theorem State.post_mem (s : State) (st : Status) :
    (s.post st).mem = s.mem := rfl
@[simp] theorem State.post_memLen (s : State) (st : Status) :
    (s.post st).memLen = s.memLen := rfl
@[simp] theorem State.post_tag (s : State) (st : Status) :
    (s.post st).tag = s.tag := rfl
@[simp] theorem State.post_fault (s : State) (st : Status) :
    (s.post st).fault = s.fault := rfl
@[simp] theorem State.post_inq (s : State) (st : Status) :
    (s.post st).inq = s.inq := rfl
@[simp] theorem State.post_outq (s : State) (st : Status) :
    (s.post st).outq = s.outq := rfl
@[simp] theorem State.post_inslot (s : State) (st : Status) :
    (s.post st).inslot = s.inslot := rfl
@[simp] theorem State.post_status (s : State) (st : Status) :
    (s.post st).status = some st := rfl
@[simp] theorem State.post_script (s : State) (st : Status) :
    (s.post st).script = s.script := rfl
@[simp] theorem State.post_received (s : State) (st : Status) :
    (s.post st).received = s.received := rfl

/-! ## `takeFault` -/

@[simp] theorem takeFault_params (k : FaultKind) (d : Int) (s : State) :
    (takeFault k d s).params = s.params := rfl
@[simp] theorem takeFault_ip (k : FaultKind) (d : Int) (s : State) :
    (takeFault k d s).ip = s.ip := rfl
@[simp] theorem takeFault_rb (k : FaultKind) (d : Int) (s : State) :
    (takeFault k d s).rb = s.rb := rfl
@[simp] theorem takeFault_mem (k : FaultKind) (d : Int) (s : State) :
    (takeFault k d s).mem = s.mem := rfl
@[simp] theorem takeFault_memLen (k : FaultKind) (d : Int) (s : State) :
    (takeFault k d s).memLen = s.memLen := rfl
@[simp] theorem takeFault_tag (k : FaultKind) (d : Int) (s : State) :
    (takeFault k d s).tag = .faulted := rfl
@[simp] theorem takeFault_fault (k : FaultKind) (d : Int) (s : State) :
    (takeFault k d s).fault = some ⟨k, s.ip, d⟩ := rfl
@[simp] theorem takeFault_inq (k : FaultKind) (d : Int) (s : State) :
    (takeFault k d s).inq = s.inq := rfl
@[simp] theorem takeFault_outq (k : FaultKind) (d : Int) (s : State) :
    (takeFault k d s).outq = s.outq := rfl
@[simp] theorem takeFault_inslot (k : FaultKind) (d : Int) (s : State) :
    (takeFault k d s).inslot = s.inslot := rfl
@[simp] theorem takeFault_status (k : FaultKind) (d : Int) (s : State) :
    (takeFault k d s).status = (match s.params.ioMode with
      | .sync => s.status
      | .stream => some (.faulted ⟨k, s.ip, d⟩)) := rfl
@[simp] theorem takeFault_script (k : FaultKind) (d : Int) (s : State) :
    (takeFault k d s).script = s.script := rfl
@[simp] theorem takeFault_received (k : FaultKind) (d : Int) (s : State) :
    (takeFault k d s).received = s.received := rfl

end Sys2Proof.Machine
end

