-- ==== Sys2Proof/Laws/Operations.lean ====
section
/-! SUPPORT. What each shared operation can do, said once: accesses, parameters, results, channels, fault entry and the
cycles several instructions share. -/

namespace Sys2Proof.Machine

/-! ## Accesses -/

theorem accessFault_eq_none_iff (p : Params) (a : Int) : accessFault p a = none ↔ InRange p a = true := by
  unfold accessFault InRange
  rcases p.memWords with - | cap <;> by_cases h : a < 0 <;> simp [h, Int.not_le.mpr, Int.not_lt.mp]

theorem accessFaultAt_eq (p : Params) (a : Int) : accessFaultAt p a = (accessFault p a).map (·, a) := by
  by_cases h : a < 0
  · simp [accessFaultAt, accessFault, h]
  · have h' := Int.not_lt.mp h
    unfold accessFaultAt accessFault InRange
    rcases p.memWords with - | cap
    · simp [h, h']
    · by_cases hc : (cap : Int) ≤ a
      · simp [h, h', hc, Int.not_lt.mpr hc]
      · simp [h, h', hc, Int.not_le.mp hc]

theorem accessFaultAt_eq_none_iff (p : Params) (a : Int) : accessFaultAt p a = none ↔ InRange p a = true := by
  rw [accessFaultAt_eq, Option.map_eq_none_iff, accessFault_eq_none_iff]

/-- An address in range is not negative. -/
theorem InRange.nonneg {p : Params} {a : Int} (h : InRange p a = true) : 0 ≤ a := by
  unfold InRange at h
  simp only [Bool.and_eq_true, decide_eq_true_eq] at h
  exact h.1

theorem memRead_of_inRange {a : Int} {s : State} (h : InRange s.params a = true) :
    memRead a s = .ok (s.mem.read a.toNat) (s.grow a.toNat) := by
  simp only [memRead, (accessFault_eq_none_iff _ _).mpr h]

theorem memRead_of_fault {a : Int} {s : State} {k : FaultKind} {d : Int}
    (h : accessFaultAt s.params a = some (k, d)) : memRead a s = .raised k d s := by
  rw [accessFaultAt_eq, Option.map_eq_some_iff] at h
  obtain ⟨k', hk, he⟩ := h
  obtain ⟨rfl, rfl⟩ := Prod.mk.inj he
  simp only [memRead, hk]

theorem memWrite_of_inRange {a v : Int} {s : State} (h : InRange s.params a = true) :
    memWrite a v s = .ok () { s.grow a.toNat with mem := s.mem.write a.toNat v } := by
  simp only [memWrite, (accessFault_eq_none_iff _ _).mpr h]

/-! ## MemLen -/

@[simp] theorem grownTo_nil (n : Nat) : grownTo n [] = n := rfl

@[simp] theorem grownTo_cons (n a : Nat) (as : List Nat) : grownTo n (a :: as) = grownTo (max n (a + 1)) as := rfl

theorem grownTo_append (n : Nat) (as bs : List Nat) : grownTo n (as ++ bs) = grownTo (grownTo n as) bs :=
  List.foldl_append ..

/-- Accesses never shrink MemLen. -/
theorem le_grownTo (n : Nat) (as : List Nat) : n ≤ grownTo n as := by
  induction as generalizing n with
  | nil => exact le_refl n
  | cons a as ih => exact le_trans (le_max_left _ _) (ih _)

/-- MemLen may become `n` by accesses in range: it has not shrunk, and it stays within a finite capacity (R43, R46). -/
def GrownBy (s : State) (n : Nat) : Prop :=
  s.memLen ≤ n ∧ ∀ cap, s.params.memWords = some cap → s.memLen ≤ cap → n ≤ cap

theorem GrownBy.refl (s : State) : GrownBy s s.memLen := ⟨le_refl _, fun _ _ h => h⟩

theorem GrownBy.le {s : State} {n : Nat} (h : GrownBy s n) : s.memLen ≤ n := h.1

theorem GrownBy.trans {s : State} {n k : Nat} (h : GrownBy s n) (h' : GrownBy { s with memLen := n } k) :
    GrownBy s k :=
  ⟨le_trans h.1 h'.1, fun cap hc hl => h'.2 cap hc (h.2 cap hc hl)⟩

/-- An access in range grows MemLen within the capacity. -/
theorem GrownBy.of_inRange {s : State} {a : Nat} (h : InRange s.params (a : Int) = true) :
    GrownBy s (max s.memLen (a + 1)) := by
  refine ⟨le_max_left _ _, fun cap hc hl => max_le hl ?_⟩
  unfold InRange at h
  rw [hc] at h
  simp only [Bool.and_eq_true, decide_eq_true_eq] at h
  omega

/-- Accesses in range grow MemLen within the capacity. -/
theorem GrownBy.grownTo {s : State} {as : List Nat} (h : ∀ a ∈ as, InRange s.params (a : Int) = true) :
    GrownBy s (grownTo s.memLen as) := by
  induction as generalizing s with
  | nil => exact GrownBy.refl s
  | cons a as ih =>
    refine (GrownBy.of_inRange (h a (List.mem_cons_self ..))).trans ?_
    exact ih (s := { s with memLen := max s.memLen (a + 1) }) fun b hb => h b (List.mem_cons_of_mem _ hb)

/-- MemLen covers every address accessed. -/
theorem lt_grownTo {as : List Nat} {a : Nat} (h : a ∈ as) (n : Nat) : a < Machine.grownTo n as := by
  induction as generalizing n with
  | nil => cases h
  | cons b as ih =>
    rw [grownTo_cons]
    rcases List.mem_cons.mp h with rfl | h
    · exact lt_of_lt_of_le (by omega) (le_grownTo _ _)
    · exact ih h _

theorem State.grow_eq (s : State) (a : Nat) : s.grow a = { s with memLen := max s.memLen (a + 1) } := rfl

/-! ## Parameters -/

theorem readFault_eq_none_iff (s : State) (i : Nat) (m : Mode) : readFault s i m = none ↔ readable s i m = true := by
  unfold readFault readable rawFault rawInRange
  rw [Option.or_eq_none_iff, accessFaultAt_eq_none_iff, Bool.and_eq_true]
  cases paramAddr s i m <;> simp [accessFaultAt_eq_none_iff]

theorem writeFault_eq_none_iff (s : State) (i : Nat) (m : Mode) : writeFault s i m = none ↔ writable s i m = true := by
  unfold writeFault writable rawFault rawInRange
  rw [Option.or_eq_none_iff, accessFaultAt_eq_none_iff, Bool.and_eq_true]
  cases paramAddr s i m <;> simp [accessFaultAt_eq_none_iff]

/-- A read parameter that resolves touches addresses in range only. -/
theorem touched_inRange {s : State} {i : Nat} {m : Mode} (h : readFault s i m = none ∨ writeFault s i m = none) :
    ∀ a ∈ touched s i m, InRange s.params (a : Int) = true := by
  rw [readFault_eq_none_iff, writeFault_eq_none_iff] at h
  unfold readable writable rawInRange at h
  simp only [Bool.and_eq_true] at h
  have hraw : InRange s.params ((s.ip + i : Nat) : Int) = true := h.elim And.left And.left
  unfold touched
  cases hp : paramAddr s i m with
  | none => simpa using hraw
  | some d =>
    have hd : InRange s.params d = true := by simpa [hp] using h.imp And.right And.right
    intro a ha
    rcases List.mem_cons.mp ha with rfl | ha
    · exact hraw
    · rw [List.mem_singleton.mp ha, Int.toNat_of_nonneg (InRange.nonneg hd)]; exact hd

/-- A read parameter that resolves gives its operand and grows MemLen over what it touches; nothing else. -/
theorem readParam_of_safe {s : State} {i : Nat} {m : Mode} (h : readFault s i m = none) :
    readParam i m s = .ok (operand s i m) { s with memLen := grownTo s.memLen (touched s i m) } := by
  have h' := (readFault_eq_none_iff s i m).mp h
  unfold readable rawInRange at h'
  rw [Bool.and_eq_true] at h'
  unfold readParam operand touched resolveRead paramAddr at *
  rw [memRead_of_inRange h'.1]
  simp only [Res.andThen, State.grow_rb, Int.toNat_natCast, rawParam] at *
  cases he : effAddr m (s.mem.read (s.ip + i)) s.rb with
  | none => rfl
  | some a =>
    simp only [he] at h'
    exact (memRead_of_inRange (s := s.grow (s.ip + i)) h'.2).trans rfl

/-- A read parameter that does not resolve raises its first fault; only MemLen may have grown. -/
theorem readParam_of_fault {s : State} {i : Nat} {m : Mode} {k : FaultKind} {d : Int}
    (h : readFault s i m = some (k, d)) :
    ∃ n, GrownBy s n ∧ readParam i m s = .raised k d { s with memLen := n } := by
  unfold readFault rawFault at h
  rcases hr : accessFaultAt s.params ((s.ip + i : Nat) : Int) with - | ⟨k', d'⟩
  · rw [hr, Option.none_or, Option.bind_eq_some_iff] at h
    obtain ⟨a, ha, hf⟩ := h
    have hin := (accessFaultAt_eq_none_iff _ _).mp hr
    refine ⟨max s.memLen (s.ip + i + 1), GrownBy.of_inRange hin, ?_⟩
    unfold readParam resolveRead
    rw [memRead_of_inRange hin]
    simp only [Res.andThen, State.grow_rb, Int.toNat_natCast]
    unfold paramAddr rawParam at ha
    rw [ha]
    exact memRead_of_fault (s := s.grow (s.ip + i)) hf
  · rw [hr, Option.some_or, Option.some.injEq, Prod.mk.injEq] at h
    obtain ⟨rfl, rfl⟩ := h
    exact ⟨s.memLen, GrownBy.refl s, by unfold readParam; rw [memRead_of_fault hr]; rfl⟩

/-- A write parameter that resolves gives its target, which is in range, and grows MemLen over its raw word only. -/
theorem writeParam_of_safe {s : State} {i : Nat} {m : Mode} (h : writeFault s i m = none) :
    writeParam i m s = .ok (target s i m : Int) { s with memLen := max s.memLen (s.ip + i + 1) } ∧
      InRange s.params (target s i m) = true ∧ touched s i m = [s.ip + i, target s i m] ∧
      paramAddr s i m = some (target s i m : Int) := by
  have h' := (writeFault_eq_none_iff s i m).mp h
  unfold writable rawInRange at h'
  rw [Bool.and_eq_true] at h'
  unfold writeParam resolveWrite target touched
  rw [memRead_of_inRange h'.1]
  simp only [Res.andThen, State.grow_rb, Int.toNat_natCast]
  cases hp : paramAddr s i m with
  | none => simp [hp] at h'
  | some a =>
    simp only [hp] at h'
    have hpos : (a.toNat : Int) = a := Int.toNat_of_nonneg (InRange.nonneg h'.2)
    unfold paramAddr rawParam at hp
    rw [hp]
    simp only [hpos, State.grow_params, (accessFault_eq_none_iff _ _).mpr h'.2, h'.2, and_self, and_true]
    rfl

/-- A write parameter that does not resolve raises its first fault; only MemLen may have grown. -/
theorem writeParam_of_fault {s : State} {i : Nat} {m : Mode} {k : FaultKind} {d : Int}
    (h : writeFault s i m = some (k, d)) :
    ∃ n, GrownBy s n ∧ writeParam i m s = .raised k d { s with memLen := n } := by
  unfold writeFault rawFault at h
  rcases hr : accessFaultAt s.params ((s.ip + i : Nat) : Int) with - | ⟨k', d'⟩
  · rw [hr, Option.none_or] at h
    have hin := (accessFaultAt_eq_none_iff _ _).mp hr
    refine ⟨max s.memLen (s.ip + i + 1), GrownBy.of_inRange hin, ?_⟩
    unfold writeParam resolveWrite
    rw [memRead_of_inRange hin]
    simp only [Res.andThen, State.grow_rb, Int.toNat_natCast]
    unfold paramAddr rawParam at h
    cases he : effAddr m (s.mem.read (s.ip + i)) s.rb with
    | none =>
      simp only [he, Option.some.injEq, Prod.mk.injEq] at h
      obtain ⟨rfl, rfl⟩ := h
      rfl
    | some a =>
      simp only [he, accessFaultAt_eq, Option.map_eq_some_iff, Prod.mk.injEq] at h
      obtain ⟨k', hk, rfl, rfl⟩ := h
      simp only [State.grow_params, hk]
      rfl
  · rw [hr, Option.some_or, Option.some.injEq, Prod.mk.injEq] at h
    obtain ⟨rfl, rfl⟩ := h
    exact ⟨s.memLen, GrownBy.refl s, by unfold writeParam; rw [memRead_of_fault hr]; rfl⟩

/-! ## What a parameter reads does not depend on MemLen -/

@[simp] theorem operand_memLen (s : State) (n i : Nat) (m : Mode) :
    operand { s with memLen := n } i m = operand s i m := rfl

@[simp] theorem target_memLen (s : State) (n i : Nat) (m : Mode) :
    target { s with memLen := n } i m = target s i m := rfl

@[simp] theorem touched_memLen (s : State) (n i : Nat) (m : Mode) :
    touched { s with memLen := n } i m = touched s i m := rfl

@[simp] theorem readFault_memLen (s : State) (n i : Nat) (m : Mode) :
    readFault { s with memLen := n } i m = readFault s i m := rfl

@[simp] theorem writeFault_memLen (s : State) (n i : Nat) (m : Mode) :
    writeFault { s with memLen := n } i m = writeFault s i m := rfl

@[simp] theorem firstFault_memLen (i : Instr) (s : State) (n : Nat) :
    firstFault i { s with memLen := n } = firstFault i s := by
  cases i <;> rfl

/-! ## Results -/

theorem checked_of_fits {v : Int} {op : Nat} {s : State} (h : Fits s.params.wordBits v) : checked v op s = .ok v s :=
  if_pos h

theorem checked_of_wrap {v : Int} {op : Nat} {s : State} (h : ¬ Fits s.params.wordBits v)
    (hw : s.params.overflow = .wrap) : checked v op s = .ok (wrapWord s.params.wordBits v) s := by
  rw [checked, if_neg h, hw]

theorem checked_of_overflow {v : Int} {op : Nat} {s : State} (h : ¬ Fits s.params.wordBits v)
    (hf : s.params.overflow = .fault) : checked v op s = .raised .overflow op s := by
  rw [checked, if_neg h, hf]

/-- The wrapped value fits (R12). -/
theorem fits_wrapWord {W : Nat} (hW : 1 ≤ W) (v : Int) : Fits W (wrapWord W v) := by
  obtain ⟨w, rfl⟩ : ∃ w, W = w + 1 := ⟨W - 1, by omega⟩
  have hpos : 0 < 2 ^ (w + 1) := Nat.two_pow_pos _
  have h₁ := Int.le_bmod (x := v) hpos
  have h₂ := Int.bmod_lt (x := v) hpos
  unfold Fits minWord maxWord wrapWord
  rw [Nat.add_sub_cancel]
  rw [pow_succ] at *
  constructor <;> push_cast at * <;> omega

/-- The wrapped value is congruent to the exact one (R12). -/
theorem wrapWord_emod (W : Nat) (v : Int) : wrapWord W v % ((2 ^ W : Nat) : Int) = v % ((2 ^ W : Nat) : Int) :=
  Int.bmod_emod

/-- A checked result that is not a fault fits. -/
theorem fits_of_checked {v r : Int} {op : Nat} {s t : State} (hW : 1 ≤ s.params.wordBits)
    (h : checked v op s = .ok r t) : Fits s.params.wordBits r ∧ t = s := by
  unfold checked at h
  split at h
  · obtain ⟨rfl, rfl⟩ := Res.ok.inj h; exact ⟨by assumption, rfl⟩
  · split at h
    · obtain ⟨rfl, rfl⟩ := Res.ok.inj h; exact ⟨fits_wrapWord hW v, rfl⟩
    · cases h

/-! ## Fault entry -/

/-- Fault entry is what `faultEntry` says (R133). -/
theorem takeFault_eq (k : FaultKind) (d : Int) (s : State) : takeFault k d s = faultEntry s k d s.memLen := by
  unfold takeFault faultEntry
  cases s.params.ioMode <;> rfl

@[simp] theorem finish_ok (u : Unit) (s : State) : finish (.ok u s) = .next s := rfl

@[simp] theorem finish_raised (k : FaultKind) (d : Int) (s : State) :
    finish (.raised k d s) = .next (takeFault k d s) := rfl

@[simp] theorem andThen_ok {α β : Type} (a : α) (s : State) (f : α → State → Res β) :
    (Res.ok a s).andThen f = f a s := rfl

@[simp] theorem andThen_raised {α β : Type} (k : FaultKind) (d : Int) (s : State) (f : α → State → Res β) :
    (Res.raised k d s).andThen f = .raised k d s := rfl

/-- A fault raised with only MemLen grown ends in fault entry. -/
theorem finish_raised_eq (k : FaultKind) (d : Int) (s : State) (n : Nat) :
    finish (.raised k d { s with memLen := n }) = .next (faultEntry s k d n) := by
  rw [finish_raised, takeFault_eq]; rfl

/-! ## The shared cycles -/

/-- The cycle `a, b, dst` with every parameter resolving and a result that is no fault: the result stored at the target,
MemLen grown over everything touched, IP advanced by 4, nothing else. -/
theorem binaryToDst_of_safe {s : State} {a b dst : Mode} {f : Int → Int → State → Res Int} {r : Int}
    (h : threeFault s a b dst = none)
    (hf : ∀ n, f (operand s 1 a) (operand s 2 b) { s with memLen := n } = .ok r { s with memLen := n }) :
    binaryToDst a b dst f s = .next { s with
      mem := s.mem.write (target s 3 dst) r
      memLen := grownTo s.memLen (touched s 1 a ++ touched s 2 b ++ touched s 3 dst)
      ip := s.ip + 4 } := by
  unfold threeFault at h
  rw [Option.or_eq_none_iff, Option.or_eq_none_iff] at h
  obtain ⟨⟨h₁, h₂⟩, h₃⟩ := h
  unfold binaryToDst
  rw [readParam_of_safe h₁, andThen_ok, readParam_of_safe (by simpa using h₂), andThen_ok]
  obtain ⟨hw, hin, ht, -⟩ := writeParam_of_safe (s := { s with
    memLen := grownTo (grownTo s.memLen (touched s 1 a)) (touched s 2 b) }) (i := 3) (m := dst) (by simpa using h₃)
  simp only [target_memLen, touched_memLen, operand_memLen] at hw hin ht ⊢
  rw [hw, andThen_ok, hf, andThen_ok, memWrite_of_inRange (by exact hin), andThen_ok, finish_ok, ht]
  simp [State.grow, State.advance, grownTo_append]

/-- The cycle `a, b, dst` with a parameter that does not resolve: the first fault. -/
theorem binaryToDst_of_fault {s : State} {a b dst : Mode} {f : Int → Int → State → Res Int} {k : FaultKind} {d : Int}
    (h : threeFault s a b dst = some (k, d)) :
    ∃ n, GrownBy s n ∧ binaryToDst a b dst f s = .next (faultEntry s k d n) := by
  unfold threeFault at h
  unfold binaryToDst
  rcases h₁ : readFault s 1 a with - | ⟨k₁, d₁⟩
  · rw [readParam_of_safe h₁, andThen_ok]
    rw [h₁, Option.none_or] at h
    have hn := GrownBy.grownTo (touched_inRange (.inl h₁))
    rcases h₂ : readFault s 2 b with - | ⟨k₂, d₂⟩
    · rw [readParam_of_safe (by simpa using h₂), andThen_ok]
      rw [h₂, Option.none_or] at h
      obtain ⟨n, hn', hw⟩ := writeParam_of_fault (s := { s with
        memLen := grownTo (grownTo s.memLen (touched s 1 a)) (touched s 2 b) }) (i := 3) (m := dst) (by simpa using h)
      refine ⟨n, hn.trans ((GrownBy.grownTo (s := { s with memLen := grownTo s.memLen (touched s 1 a) })
        (touched_inRange (.inl h₂))).trans hn'), ?_⟩
      simp only [touched_memLen] at hw ⊢
      rw [hw, andThen_raised, finish_raised_eq]
    · rw [h₂, Option.some_or, Option.some.injEq, Prod.mk.injEq] at h
      obtain ⟨rfl, rfl⟩ := h
      obtain ⟨n, hn', hr⟩ := readParam_of_fault (s := { s with memLen := grownTo s.memLen (touched s 1 a) })
        (i := 2) (m := b) (by simpa using h₂)
      exact ⟨n, hn.trans hn', by rw [hr, andThen_raised, finish_raised_eq]; rfl⟩
  · rw [h₁, Option.some_or, Option.some_or, Option.some.injEq, Prod.mk.injEq] at h
    obtain ⟨rfl, rfl⟩ := h
    obtain ⟨n, hn', hr⟩ := readParam_of_fault h₁
    exact ⟨n, hn', by rw [hr, andThen_raised, finish_raised_eq]⟩

/-- The cycle `a, b, dst` whose result raises: that fault, after every parameter has resolved. -/
theorem binaryToDst_of_resultFault {s : State} {a b dst : Mode} {f : Int → Int → State → Res Int} {k : FaultKind}
    {d : Int} (h : threeFault s a b dst = none)
    (hf : ∀ n, f (operand s 1 a) (operand s 2 b) { s with memLen := n } = .raised k d { s with memLen := n }) :
    ∃ n, GrownBy s n ∧ binaryToDst a b dst f s = .next (faultEntry s k d n) := by
  unfold threeFault at h
  rw [Option.or_eq_none_iff, Option.or_eq_none_iff] at h
  obtain ⟨⟨h₁, h₂⟩, h₃⟩ := h
  unfold binaryToDst
  rw [readParam_of_safe h₁, andThen_ok, readParam_of_safe (by simpa using h₂), andThen_ok]
  obtain ⟨hw, -, -, -⟩ := writeParam_of_safe (s := { s with
    memLen := grownTo (grownTo s.memLen (touched s 1 a)) (touched s 2 b) }) (i := 3) (m := dst) (by simpa using h₃)
  simp only [target_memLen, touched_memLen, operand_memLen] at hw ⊢
  rw [hw, andThen_ok, hf, andThen_raised, finish_raised_eq]
  refine ⟨_, (GrownBy.grownTo (touched_inRange (.inl h₁))).trans
    ((GrownBy.grownTo (s := { s with memLen := grownTo s.memLen (touched s 1 a) }) (touched_inRange (.inl h₂))).trans
      (GrownBy.of_inRange (a := s.ip + 3) ?_)), rfl⟩
  exact touched_inRange (s := s) (.inr h₃) _ (by rw [(writeParam_of_safe h₃).2.2.1]; exact List.mem_cons_self ..)

/-- The cycle `cond, target` with both parameters resolving: the jump or the default advance, on the state grown over
what they touch. -/
theorem jumpWhen_of_safe {s : State} {taken : Int → Bool} {c t : Mode}
    (h : (readFault s 1 c).or (readFault s 2 t) = none) :
    jumpWhen taken c t s =
      finish (if taken (operand s 1 c) = true then
          jumpTo (operand s 2 t) { s with memLen := grownTo s.memLen (touched s 1 c ++ touched s 2 t) }
        else .ok () { s with memLen := grownTo s.memLen (touched s 1 c ++ touched s 2 t), ip := s.ip + 3 }) := by
  rw [Option.or_eq_none_iff] at h
  unfold jumpWhen
  rw [readParam_of_safe h.1, andThen_ok, readParam_of_safe (by simpa using h.2), andThen_ok]
  simp only [touched_memLen, operand_memLen, grownTo_append]
  rfl

/-- The cycle `cond, target` with a parameter that does not resolve: the first fault. -/
theorem jumpWhen_of_fault {s : State} {taken : Int → Bool} {c t : Mode} {k : FaultKind} {d : Int}
    (h : (readFault s 1 c).or (readFault s 2 t) = some (k, d)) :
    ∃ n, GrownBy s n ∧ jumpWhen taken c t s = .next (faultEntry s k d n) := by
  unfold jumpWhen
  rcases h₁ : readFault s 1 c with - | ⟨k₁, d₁⟩
  · rw [readParam_of_safe h₁, andThen_ok]
    rw [h₁, Option.none_or] at h
    obtain ⟨n, hn', hr⟩ := readParam_of_fault (s := { s with memLen := grownTo s.memLen (touched s 1 c) })
      (i := 2) (m := t) (by simpa using h)
    exact ⟨n, (GrownBy.grownTo (touched_inRange (.inl h₁))).trans hn', by rw [hr, andThen_raised, finish_raised_eq]; rfl⟩
  · rw [h₁, Option.some_or, Option.some.injEq, Prod.mk.injEq] at h
    obtain ⟨rfl, rfl⟩ := h
    obtain ⟨n, hn', hr⟩ := readParam_of_fault h₁
    exact ⟨n, hn', by rw [hr, andThen_raised, finish_raised_eq]⟩

/-! ## The channels -/

theorem chanTake_sync_nil {s : State} (h : s.params.ioMode = .sync) (hq : s.inq = []) : chanTake s = .starve := by
  simp only [chanTake, h, hq]

theorem chanTake_sync_cons {s : State} (h : s.params.ioMode = .sync) {v : Int} {rest : List Int}
    (hq : s.inq = v :: rest) : chanTake s = .value v { s with inq := rest } := by
  simp only [chanTake, h, hq]

theorem chanTake_stream_none {s : State} (h : s.params.ioMode = .stream) (hs : s.inslot = none) :
    chanTake s = .wait := by
  simp only [chanTake, h, hs]

theorem chanTake_stream_some {s : State} (h : s.params.ioMode = .stream) {v : Int} (hs : s.inslot = some v) :
    chanTake s = .value v { s with inslot := none } := by
  simp only [chanTake, h, hs]

theorem chanPut_sync {s : State} (h : s.params.ioMode = .sync) (v : Int) :
    chanPut v s = { s with outq := s.outq ++ [v] } := by
  unfold chanPut; rw [h]

theorem chanPut_stream {s : State} (h : s.params.ioMode = .stream) (v : Int) :
    chanPut v s = { s with status := some (.output v), tag := .idle } := by
  unfold chanPut; rw [h]; rfl

/-! ## Fetch and decode -/

/-- A fetch that succeeds on a word that decodes gives the instruction and grows MemLen over IP. -/
theorem fetchDecode_of_ok {s : State} {i : Instr} (hin : InRange s.params s.ip = true)
    (hd : decode (s.mem.read s.ip) = .ok i) :
    fetchDecode s = .ok i { s with memLen := max s.memLen (s.ip + 1) } := by
  unfold fetchDecode
  rw [memRead_of_inRange hin, andThen_ok, Int.toNat_natCast, hd]
  rfl

/-- Fetch and decode give an instruction, with only MemLen grown, or raise InvalidOpcode or the fetch's own fault. -/
theorem fetchDecode_cases (s : State) :
    (∃ i, InRange s.params s.ip = true ∧ decode (s.mem.read s.ip) = .ok i ∧
      fetchDecode s = .ok i { s with memLen := max s.memLen (s.ip + 1) }) ∨
    (InRange s.params s.ip = true ∧ (∃ e, decode (s.mem.read s.ip) = .error e) ∧
      fetchDecode s = .raised .invalidOpcode (s.mem.read s.ip) { s with memLen := max s.memLen (s.ip + 1) }) ∨
    (∃ k d, accessFaultAt s.params s.ip = some (k, d) ∧ fetchDecode s = .raised k d s) := by
  rcases hf : accessFaultAt s.params s.ip with - | ⟨k, d⟩
  · have hin := (accessFaultAt_eq_none_iff _ _).mp hf
    rcases hd : decode (s.mem.read s.ip) with e | i
    · refine .inr (.inl ⟨hin, ⟨e, rfl⟩, ?_⟩)
      unfold fetchDecode
      rw [memRead_of_inRange hin, andThen_ok, Int.toNat_natCast, hd]
      rfl
    · exact .inl ⟨i, hin, rfl, fetchDecode_of_ok hin hd⟩
  · refine .inr (.inr ⟨k, d, rfl, ?_⟩)
    unfold fetchDecode
    rw [memRead_of_fault hf, andThen_raised]

end Sys2Proof.Machine
end

