-- ==== Sys2Proof/Laws/PerInstr.lean ====
section
/-! SUPPORT. One lemma per instruction: the shape the opcode map gives it (30_encoding.md R57, R63). -/

namespace Sys2Proof.Laws.Shape

/-- The opcode is two decimal digits; there are as many modes as parameters, at most three; a write parameter is the
last; and the instruction word's low two digits are the opcode. -/
def Statement (i : Instr) : Prop :=
  i.opcode < 100 ∧ i.modes.length = i.nparams ∧ i.nparams ≤ 3 ∧ (∀ k, i.writeParam = some k → k = i.nparams) ∧
    0 ≤ encode i ∧ encode i % 100 = i.opcode

/-- The rows of the opcode map: opcode, parameter count, write parameter. -/
theorem map_row (i : Instr) :
    i.opcode < 100 ∧ i.nparams ≤ 3 ∧ (∀ k, i.writeParam = some k → k = i.nparams) ∧ i.modes.length = i.nparams := by
  cases i <;> simp [Instr.opcode, Instr.nparams, Instr.writeParam, Instr.modes]

/-- The encoded word's digits follow from the row. -/
theorem of_row (i : Instr) : Statement i := by
  obtain ⟨hop, hn, hw, hlen⟩ := map_row i
  refine ⟨hop, hlen, hn, hw, ?_, ?_⟩ <;> unfold encode <;> omega

theorem add (a b dst : Mode) : Statement (.add a b dst) := of_row _

theorem mul (a b dst : Mode) : Statement (.mul a b dst) := of_row _

theorem input (dst : Mode) : Statement (.input dst) := of_row _

theorem output (a : Mode) : Statement (.output a) := of_row _

theorem jumpIfTrue (cond target : Mode) : Statement (.jumpIfTrue cond target) := of_row _

theorem jumpIfFalse (cond target : Mode) : Statement (.jumpIfFalse cond target) := of_row _

theorem lessThan (a b dst : Mode) : Statement (.lessThan a b dst) := of_row _

theorem equals (a b dst : Mode) : Statement (.equals a b dst) := of_row _

theorem adjustBase (a : Mode) : Statement (.adjustBase a) := of_row _

theorem halt : Statement .halt := of_row _

end Sys2Proof.Laws.Shape
end

