-- ==== Sys2Proof/Tests/Slice0.lean ====
section
/-! SUPPORT. Tests with expected values written out from the spec (30_encoding.md, 95_test_vectors.md), and for every
statement that has hypotheses a witness: a concrete state and operands that meet all of them together, one for each clause.
No test runs more than one step. -/

open Sys2Proof Sys2Proof.Machine Host

namespace Sys2Proof.Tests

/-! ## Small states -/

/-- Parameters at a width of 8 bits, a capacity of 8 words. -/
def small (m : IoMode) (o : OverflowMode) : Params :=
  { wordBits := 8, overflow := o, memWords := some 8, ioMode := m }

/-- A Running instance with a program at address 0 and the given parameters. -/
def loaded (p : Params) (ws : List Int) : State :=
  { freshState p ws with tag := .running }

/-- A sync instance with the default parameters (95_test_vectors.md, Conventions). -/
def prog (ws : List Int) : State := loaded Params.default ws

/-- A Running stream instance with the default parameters. -/
def progT (ws : List Int) : State := loaded { Params.default with ioMode := .stream } ws

/-- The next state of an outcome, if it has one. -/
def nextOf : Outcome State Fault Refusal → Option State
  | .next t => some t
  | .fault _ => none
  | .refused _ => none

/-- The stuck state of an outcome, if it has one. -/
def faultOf : Outcome State Fault Refusal → Option Fault
  | .next _ => none
  | .fault f => some f
  | .refused _ => none

/-- IP and the snapshot after one step. -/
def ipMem (s : State) : Option (Nat × List Int) := (nextOf (step s)).map fun t => (t.ip, t.snapshot)

/-- The fault code, ip and detail after one step (R132). -/
def faultAfter (s : State) : Option (Nat × Nat × Int) :=
  ((nextOf (step s)).bind State.fault).map fun r => (r.kind.code, r.ip, r.detail)

/-! ## WellFormed refuses ill-formed terms -/

/-- R6: 21101 is no Word of 8 bits; 101 is. -/
theorem test_instr_width :
    ¬ (Instr.add .immediate .immediate .relative).WellFormed 8 ∧ (Instr.add .immediate .position .position).WellFormed 8 := by
  decide

/-- R57: an item has as many raw words as its instruction has parameters, and each fits. -/
theorem test_item_raws :
    ¬ (AsmItem.instr (.output .immediate) []).WellFormed 64 ∧ ¬ (AsmItem.instr .halt [0]).WellFormed 64 ∧
      ¬ (AsmItem.instr (.output .position) [128]).WellFormed 8 ∧ (AsmItem.instr (.output .position) [127]).WellFormed 8 := by
  decide

/-- R6: a data word fits. -/
theorem test_item_word : ¬ (AsmItem.word (-129)).WellFormed 8 ∧ (AsmItem.word (-128)).WellFormed 8 := by decide

/-- R6: W is at least 2. -/
theorem test_params_width :
    ¬ ({ Params.default with wordBits := 1 } : Params).WellFormed ∧
      ({ Params.default with wordBits := 2 } : Params).WellFormed := by decide

/-- R91: input values fit. -/
theorem test_words_fit : ¬ WordsFit 8 [5, 128] ∧ WordsFit 8 [127, -128] := by decide

/-- R152, V73: an image word 2^63 at W = 64, and an image of 9 words with MEM_WORDS = 8, are refused; 8 words are not. -/
theorem test_image :
    ¬ ImageOk Params.default [9223372036854775808] ∧ ¬ ImageOk (small .sync .fault) [0, 0, 0, 0, 0, 0, 0, 0, 0] ∧
      ImageOk (small .sync .fault) [0, 0, 0, 0, 0, 0, 0, 0] := by decide

/-- R152: a refused load makes no instance. -/
theorem test_no_instance :
    constructSync Params.default [9223372036854775808] [] = none ∧
      constructStream (small .stream .fault) [0, 0, 0, 0, 0, 0, 0, 0, 0] [] = none := by decide

/-! ## Decoding and encoding, words written out digit by digit (R58, R59, R63) -/

theorem test_decode_three :
    decode 21101 = .ok (.add .immediate .immediate .relative) ∧
      decode 1002 = .ok (.mul .position .immediate .position) ∧
      decode 20107 = .ok (.lessThan .immediate .position .relative) ∧
      decode 12008 = .ok (.equals .position .relative .immediate) := by decide

theorem test_decode_two :
    decode 2105 = .ok (.jumpIfTrue .immediate .relative) ∧ decode 206 = .ok (.jumpIfFalse .relative .position) := by decide

theorem test_decode_short :
    decode 203 = .ok (.input .relative) ∧ decode 104 = .ok (.output .immediate) ∧
      decode 209 = .ok (.adjustBase .relative) ∧ decode 99 = .ok .halt := by decide

/-- R61: digits above the used ones are not examined (V14, V18). -/
theorem test_decode_ignored :
    decode 199 = .ok .halt ∧ decode 1199999 = .ok .halt ∧ decode 93004 = .ok (.output .position) ∧
      decode 900001 = .ok (.add .position .position .position) := by decide

/-- R57, R62, R64 (V15, V16, V17, V19). -/
theorem test_decode_errors :
    decode 42 = .error (.unknownOpcode 42) ∧ decode (-1) = .error .negativeWord ∧
      decode 301 = .error (.badModeDigit 1 3) ∧ decode 100 = .error (.unknownOpcode 0) ∧
      decode 31102 = .error (.badModeDigit 3 3) := by decide

/-- R79: `add [9], #3, [rb-2]` is 1 + 100*0 + 1000*1 + 10000*2 (log 19 on R78's own word for it). -/
theorem test_encode :
    encode (.add .position .immediate .relative) = 21001 ∧ encode (.jumpIfTrue .immediate .immediate) = 1105 ∧
      encode (.adjustBase .immediate) = 109 ∧ encode .halt = 99 := by decide

/-- P1's first three items assemble to the words printed beside them. -/
theorem test_assemble :
    assemble [.instr (.input .position) [20], .instr (.output .position) [20],
      .instr (.add .position .immediate .position) [20, -1, 20]] = [3, 20, 4, 20, 1001, 20, -1, 20] := by decide

/-- R78: the label `loop` of P1's loop is address 2, and `n` is 6, the word after the halt. -/
def labelled : List AsmLine :=
  [.instr (.input .position) [.label "n"], .label "loop", .instr (.jumpIfTrue .position .immediate) [.label "n", .label "loop"],
    .instr .halt [], .label "n", .word (.num 0)]

theorem test_labels :
    labelAddr "loop" 0 labelled = some 2 ∧ assembleListing labelled = some [3, 6, 1005, 6, 2, 99, 0] ∧
      assembleListing [.word (.label "n")] = none := by decide

/-- R78's operand spellings. -/
theorem test_spelling :
    (AsmItem.instr (.add .position .immediate .relative) [9, 3, -2]).spell = "add [9], #3, [rb-2]" ∧
      (AsmItem.word 7).spell = ".word 7" ∧ spellOperand .relative 4 = "[rb+4]" := by decide

/-- The host's reading of a table word: the low bits of the first word (log 13). -/
theorem test_table_words :
    decodeTableWord 8 1 = some (.add .position .position .position) ∧ decodeTableWord 8 99 = some .halt ∧
      decodeTableWord 256 21008 = some (.equals .position .immediate .relative) ∧ decodeTableWord 8 42 = none := by decide

/-- `withFetchWord` makes the next step run its instruction: opcode 4, Position mode, its raw word 0, outputs M[0] = 4. -/
theorem test_fetch_word :
    (nextOf (step (State.reset.withFetchWord 8 4))).map (fun t => (t.ip, t.outq)) = some (2, [4]) ∧
      (nextOf (step (State.reset.withFetchWord 8 99))).map State.tag = some .halted := by decide

/-! ## One step of each instruction (95_test_vectors.md) -/

/-- V1, first step. -/
theorem test_add : ipMem (prog [1, 0, 0, 0, 99]) = some (4, [2, 0, 0, 0, 99]) := by decide

/-- V22 under `wrap`: 2^63 - 1 plus 1 is -2^63. -/
theorem test_add_wraps :
    ipMem (loaded { Params.default with overflow := .wrap } [1101, 9223372036854775807, 1, 5, 99, 0]) =
      some (4, [1101, 9223372036854775807, 1, 5, 99, -9223372036854775808]) := by decide

/-- V20, first step: source and destination are one word. -/
theorem test_mul : ipMem (prog [1002, 4, 3, 4, 33]) = some (4, [1002, 4, 3, 4, 99]) := by decide

/-- V32m: -1 times -2^63 overflows. -/
theorem test_mul_overflow :
    faultAfter (prog [1102, -1, -9223372036854775808, 5, 99, 0]) = some (5, 0, 2) := by decide

/-- V38, first step: the input lands on the next instruction. -/
theorem test_input :
    ipMem { prog [3, 2, 0] with inq := [99] } = some (2, [3, 2, 99]) := by decide

/-- V36: the target faults before the channel is asked. -/
theorem test_input_target : faultAfter (prog [103, 0, 99]) = some (3, 0, 1) := by decide

/-- V62, second instruction: [rb+7] with RB = -5 is M[2]. -/
theorem test_output :
    (nextOf (step { prog [109, -5, 204, 7, 99] with ip := 2, rb := -5 })).map (fun t => (t.ip, t.outq)) =
      some (4, [204]) := by decide

/-- V33's output step in stream mode: posts, pauses, IP after the instruction. -/
theorem test_output_stream :
    (nextOf (step { progT [7, 0, 4, 0, 99] with ip := 2 })).map (fun t => (t.ip, t.tag, t.status)) =
      some (4, .idle, some (.output 7)) := by decide

/-- V40, first step. -/
theorem test_jump_if_true : (ipMem (prog [1105, 1, 7, 0, 0, 0, 0, 99])).map Prod.fst = some 7 := by decide

/-- V43. -/
theorem test_jump_if_true_negative : faultAfter (prog [1105, 1, -3]) = some (2, 0, -3) := by decide

/-- V41, first step. -/
theorem test_jump_if_false : (ipMem (prog [1106, 0, 7, 0, 0, 0, 0, 99])).map Prod.fst = some 7 := by decide

/-- V42, first step: not taken. -/
theorem test_jump_if_false_falls : (ipMem (prog [1106, 5, 7, 99])).map Prod.fst = some 3 := by decide

/-- V52: the comparison is signed. -/
theorem test_less_than :
    (nextOf (step (prog [1107, -9223372036854775808, 9223372036854775807, 5, 99, 42]))).map (fun t => t.mem.read 5) =
      some 1 := by decide

/-- V51: 8 < 8 is false. -/
theorem test_less_than_equal : ipMem (prog [1107, 8, 8, 5, 99, 42]) = some (4, [1107, 8, 8, 5, 99, 0]) := by decide

/-- V53. -/
theorem test_equals : ipMem (prog [1108, 8, 8, 5, 99, 42]) = some (4, [1108, 8, 8, 5, 99, 1]) := by decide

/-- V54. -/
theorem test_equals_not : ipMem (prog [1108, -8, 8, 5, 99, 42]) = some (4, [1108, -8, 8, 5, 99, 0]) := by decide

/-- V64, second instruction: the operand is read with the old RB. -/
theorem test_adjust_base :
    (nextOf (step { prog [109, 5, 209, 0, 99, 3] with ip := 2, rb := 5 })).map (fun t => (t.ip, t.rb)) = some (4, 8) := by
  decide

/-- V65, second instruction. -/
theorem test_adjust_base_overflow :
    faultAfter { prog [109, 9223372036854775807, 109, 1, 99] with ip := 2, rb := 9223372036854775807 } = some (5, 2, 9) := by
  decide

/-- V70: IP stays. -/
theorem test_halt :
    (nextOf (step (prog [1099, 7]))).map (fun t => (t.tag, t.ip, t.snapshot)) = some (.halted, 0, [1099, 7]) := by decide

/-- V37, first step: Terminated with the snapshot. -/
theorem test_halt_stream :
    (nextOf (step (progT [99]))).map (fun t => (t.tag, t.status)) = some (.halted, some (.terminated [99])) := by decide

/-- V71: the empty image's first fetch reads 0. -/
theorem test_empty_image : faultAfter State.reset = some (1, 0, 0) := by decide

/-- V28 with MEM_WORDS = 8. -/
theorem test_capacity :
    faultAfter (loaded { Params.default with memWords := some 8 } [1101, 5, 6, 10, 99]) = some (6, 0, 10) := by decide

/-! ## Witnesses: encoding and load -/

theorem witness_decoded_fields :
    decode 21101 = .ok (.add .immediate .immediate .relative) ∧
      (Instr.add .immediate .immediate .relative).modes[2]? = some .relative := by decide

theorem witness_assembled_listing :
    (AsmItem.instr (.add .immediate .immediate .position) [5, -6, 4]).WellFormed Params.default.wordBits ∧
      (constructSync Params.default
        (assemble [.instr (.add .immediate .immediate .position) [5, -6, 4], .instr .halt []]) [7]).isSome = true ∧
      2 < (Instr.add .immediate .immediate .position).nparams := by decide

theorem witness_labels :
    AsmLine.label "n" ∉ [.label "loop", .instr .halt []] ∧ (assembleListing labelled).isSome = true := by decide

/-- At the width's bounds, with an image exactly as long as the capacity. -/
theorem witness_sync_construction :
    (small .sync .fault).ioMode = .sync ∧ 2 ≤ (small .sync .fault).wordBits ∧
      (∀ v ∈ ([127, -128, 3, 4, 5, 6, 7, 8] : List Int), Fits (small .sync .fault).wordBits v) ∧
      (∀ cap, (small .sync .fault).memWords = some cap → ([127, -128, 3, 4, 5, 6, 7, 8] : List Int).length ≤ cap) ∧
      ∀ v ∈ ([-128, 127] : List Int), Fits (small .sync .fault).wordBits v :=
  ⟨rfl, by decide, by decide, fun cap h => by cases h; decide, by decide⟩

theorem witness_stream_construction :
    (small .stream .wrap).ioMode = .stream ∧ 2 ≤ (small .stream .wrap).wordBits ∧
      (∀ v ∈ ([127, -128, 3, 4, 5, 6, 7, 8] : List Int), Fits (small .stream .wrap).wordBits v) ∧
      ∀ cap, (small .stream .wrap).memWords = some cap → ([127, -128, 3, 4, 5, 6, 7, 8] : List Int).length ≤ cap :=
  ⟨rfl, by decide, by decide, fun cap h => by cases h; decide⟩

theorem witness_load_refuses :
    (∃ v ∈ ([128] : List Int), ¬ Fits (small .sync .fault).wordBits v) ∧
      (∃ cap, (small .sync .fault).memWords = some cap ∧ cap < ([0, 0, 0, 0, 0, 0, 0, 0, 0] : List Int).length) ∧
      ∃ v ∈ ([-129] : List Int), ¬ Fits (small .sync .fault).wordBits v :=
  ⟨by decide, ⟨8, rfl, by decide⟩, by decide⟩

/-! ## Witnesses: memory and operands -/

/-- The three clauses of a read or write: address -1, address 8 with capacity 8, addresses 0 and 7. -/
theorem witness_mem_access :
    ((-1 : Int) < 0) ∧ ((0 : Int) ≤ 8 ∧ (loaded (small .sync .fault) [99]).params.memWords = some 8 ∧ ((8 : Nat) : Int) ≤ 8) ∧
      ((0 : Int) ≤ 7 ∧ ∀ cap : Nat, (loaded (small .sync .fault) [99]).params.memWords = some cap → (7 : Int) < (cap : Int)) ∧
      (loaded (small .sync .fault) [99]).mem.wf :=
  ⟨by decide, ⟨by decide, rfl, by decide⟩, ⟨by decide, fun cap h => by cases h; decide⟩, by decide⟩

theorem witness_canonical_memory :
    Memory.wf [(1, 5), (3, -2)] ∧ Memory.wf (Memory.write (Memory.write [] 3 (-2)) 1 5) ∧
      ∀ a, Memory.read [(1, 5), (3, -2)] a = Memory.read (Memory.write (Memory.write [] 3 (-2)) 1 5) a :=
  ⟨by decide, by decide, fun _ => rfl⟩

/-- V72: the add writes the next instruction. -/
theorem witness_next_fetch :
    (prog [1101, 0, 99, 4, 1]).mem.wf ∧ Safe (.add .immediate .immediate .position) (prog [1101, 0, 99, 4, 1]) ∧
      Fits (prog [1101, 0, 99, 4, 1]).params.wordBits
        (operand (prog [1101, 0, 99, 4, 1]) 1 .immediate + operand (prog [1101, 0, 99, 4, 1]) 2 .immediate) := by decide

/-- A negative raw value; and a relative sum of -1 at RB = -5. -/
theorem witness_read_parameters : ((-1 : Int) < 0) ∧ (4 : Int) + ({ prog [99] with rb := -5 } : State).rb < 0 := by decide

/-- The clauses of a write parameter, in Relative mode at RB = -5, capacity 8: sums -1, 8, 7. -/
theorem witness_write_parameters :
    ((-1 : Int) = 4 + ({ loaded (small .sync .fault) [99] with rb := -5 } : State).rb ∧ (-1 : Int) < 0) ∧
      ((8 : Int) = 13 + ({ loaded (small .sync .fault) [99] with rb := -5 } : State).rb ∧ (0 : Int) ≤ 8 ∧
        ({ loaded (small .sync .fault) [99] with rb := -5 } : State).params.memWords = some 8 ∧ ((8 : Nat) : Int) ≤ 8) ∧
      ((7 : Int) = 12 + ({ loaded (small .sync .fault) [99] with rb := -5 } : State).rb ∧ (0 : Int) ≤ 7 ∧
        ∀ cap : Nat, ({ loaded (small .sync .fault) [99] with rb := -5 } : State).params.memWords = some cap →
          (7 : Int) < (cap : Int)) :=
  ⟨by decide, ⟨by decide, by decide, rfl, by decide⟩, ⟨by decide, by decide, fun cap h => by cases h; decide⟩⟩

/-- V7's shape, sync with an input, and stream with a full slot. -/
theorem witness_relative_target :
    ({ prog [203, 0, 99] with rb := 10, inq := [7] } : State).mem.wf ∧
      Safe (.input .relative) { prog [203, 0, 99] with rb := 10, inq := [7] } ∧
      Safe (.input .relative) { progT [203, 0, 99] with rb := 10, inslot := some 7 } ∧
      ({ progT [203, 0, 99] with rb := 10, inslot := some 7 } : State).inslot ≠ none := by decide

/-! ## Witnesses: the instructions -/

/-- 100 + (-1) and 100 * (-1), stored at 4; also the compares' hypotheses. -/
theorem witness_three_parameters :
    readable (prog [1101, 100, -1, 4, 0]) 1 .immediate = true ∧ readable (prog [1101, 100, -1, 4, 0]) 2 .immediate = true ∧
      writable (prog [1101, 100, -1, 4, 0]) 3 .position = true ∧
      Fits (prog [1101, 100, -1, 4, 0]).params.wordBits
        (operand (prog [1101, 100, -1, 4, 0]) 1 .immediate + operand (prog [1101, 100, -1, 4, 0]) 2 .immediate) ∧
      Fits (prog [1101, 100, -1, 4, 0]).params.wordBits
        (operand (prog [1101, 100, -1, 4, 0]) 1 .immediate * operand (prog [1101, 100, -1, 4, 0]) 2 .immediate) := by
  decide

theorem witness_wrap_mode :
    1 ≤ (loaded (small .sync .wrap) [101, 127, 2, 5]).params.wordBits ∧
      (loaded (small .sync .wrap) [101, 127, 2, 5]).params.overflow = .wrap ∧
      readable (loaded (small .sync .wrap) [101, 127, 2, 5]) 1 .immediate = true ∧
      readable (loaded (small .sync .wrap) [101, 127, 2, 5]) 2 .immediate = true ∧
      writable (loaded (small .sync .wrap) [101, 127, 2, 5]) 3 .position = true := by decide

/-- 127 + 2, 127 * 2 and RB + 127 at RB = 1, outside 8 bits. -/
theorem witness_overflow :
    ({ loaded (small .sync .fault) [101, 127, 2, 5] with rb := 1 } : State).params.overflow = .fault ∧
      readable { loaded (small .sync .fault) [101, 127, 2, 5] with rb := 1 } 1 .immediate = true ∧
      readable { loaded (small .sync .fault) [101, 127, 2, 5] with rb := 1 } 2 .immediate = true ∧
      writable { loaded (small .sync .fault) [101, 127, 2, 5] with rb := 1 } 3 .position = true ∧
      ¬ Fits 8 (operand (loaded (small .sync .fault) [101, 127, 2, 5]) 1 .immediate +
        operand (loaded (small .sync .fault) [101, 127, 2, 5]) 2 .immediate) ∧
      ¬ Fits 8 (operand (loaded (small .sync .fault) [101, 127, 2, 5]) 1 .immediate *
        operand (loaded (small .sync .fault) [101, 127, 2, 5]) 2 .immediate) ∧
      ¬ Fits 8 (1 + operand (loaded (small .sync .fault) [101, 127, 2, 5]) 1 .immediate) := by decide

theorem witness_sync_input :
    ({ prog [3, 0, 99] with inq := [7, 8] } : State).params.ioMode = .sync ∧
      writable { prog [3, 0, 99] with inq := [7, 8] } 1 .position = true ∧
      ({ prog [3, 0, 99] with inq := [7, 8] } : State).inq = 7 :: [8] ∧
      writable (prog [3, 0, 99]) 1 .position = true ∧ (prog [3, 0, 99]).inq = [] := by decide

theorem witness_stream_input :
    (progT [3, 0, 99]).params.ioMode = .stream ∧ writable (progT [3, 0, 99]) 1 .position = true ∧
      (progT [3, 0, 99]).inslot = none ∧ ({ progT [3, 0, 99] with inslot := some 7 } : State).inslot = some 7 ∧
      writable { progT [3, 0, 99] with inslot := some 7 } 1 .position = true := by decide

theorem witness_output :
    readable (prog [4, 0, 99]) 1 .position = true ∧ (prog [4, 0, 99]).params.ioMode = .sync ∧
      readable (progT [4, 0, 99]) 1 .position = true ∧ (progT [4, 0, 99]).params.ioMode = .stream ∧
      (nextOf (exec (.output .position) (progT [4, 0, 99]))).map State.script = some [] := by decide

/-- cond 1 and cond 0, target 0; then target -1. -/
theorem witness_jumps :
    (readable (prog [1105, 1, 0]) 1 .immediate = true ∧ readable (prog [1105, 1, 0]) 2 .immediate = true ∧
        operand (prog [1105, 1, 0]) 1 .immediate ≠ 0 ∧ 0 ≤ operand (prog [1105, 1, 0]) 2 .immediate) ∧
      (readable (prog [1106, 0, 0]) 1 .immediate = true ∧ readable (prog [1106, 0, 0]) 2 .immediate = true ∧
        operand (prog [1106, 0, 0]) 1 .immediate = 0 ∧ 0 ≤ operand (prog [1106, 0, 0]) 2 .immediate) := by decide

theorem witness_negative_jumps :
    (readable (prog [1105, 1, -1]) 1 .immediate = true ∧ readable (prog [1105, 1, -1]) 2 .immediate = true ∧
        operand (prog [1105, 1, -1]) 2 .immediate < 0 ∧ operand (prog [1105, 1, -1]) 1 .immediate ≠ 0) ∧
      (readable (prog [1106, 0, -1]) 1 .immediate = true ∧ readable (prog [1106, 0, -1]) 2 .immediate = true ∧
        operand (prog [1106, 0, -1]) 2 .immediate < 0 ∧ operand (prog [1106, 0, -1]) 1 .immediate = 0) := by decide

/-- V60; and 127 added to RB = 1 at 8 bits under `wrap`. -/
theorem witness_adjust_base :
    (readable (prog [109, 19, 99]) 1 .immediate = true ∧
        Fits (prog [109, 19, 99]).params.wordBits ((prog [109, 19, 99]).rb + operand (prog [109, 19, 99]) 1 .immediate)) ∧
      (readable { loaded (small .sync .wrap) [109, 127] with rb := 1 } 1 .immediate = true ∧
        1 ≤ (loaded (small .sync .wrap) [109, 127]).params.wordBits ∧
        (loaded (small .sync .wrap) [109, 127]).params.overflow = .wrap) := by decide

theorem witness_halt : (prog [99]).params.ioMode = .sync ∧ (progT [99]).params.ioMode = .stream := by decide

/-! ## Witnesses: faults -/

/-- An add whose second operand is negative; an add that completes. -/
theorem witness_first_fault :
    firstFault (.add .position .position .position) (prog [1, 0, -1, 0]) = some (.invalidAddress, -1) ∧
      firstFault (.add .position .position .position) (prog [1, 0, 0, 0]) = none := by decide

theorem witness_immediate_target :
    readable (prog [11101, 1, 1, 0, 99]) 1 .immediate = true ∧ readable (prog [11101, 1, 1, 0, 99]) 2 .immediate = true ∧
      rawInRange (prog [11101, 1, 1, 0, 99]) 3 = true ∧ rawInRange (prog [103, 0, 99]) 1 = true := by decide

/-- V27 and, in Relative mode, V61's second instruction. -/
theorem witness_negative_address :
    ((Instr.add .position .position .position).modes.head? = some .position ∧ rawInRange (prog [1, -1, 0, 0, 99]) 1 = true ∧
        paramAddr (prog [1, -1, 0, 0, 99]) 1 .position = some (-1)) ∧
      ((Instr.output .relative).modes.head? = some .relative ∧
        rawInRange { prog [109, -5, 204, 0, 99] with ip := 2, rb := -5 } 1 = true ∧
        paramAddr { prog [109, -5, 204, 0, 99] with ip := 2, rb := -5 } 1 .relative = some (-5)) ∧ ((-1 : Int) < 0) := by
  decide

theorem witness_unknown_opcode :
    (prog [98]).tag = .running ∧ (prog [98]).script = [] ∧ InRange (prog [98]).params (prog [98]).ip = true ∧
      0 ≤ (prog [98]).mem.read (prog [98]).ip ∧
      (prog [98]).mem.read (prog [98]).ip % 100 ∉ [(1 : Int), 2, 3, 4, 5, 6, 7, 8, 9, 99] := by decide

/-- A negative word; mode digit 3 of parameter 3 of an add, and mode digit 9 of an output. -/
theorem witness_bad_word :
    ((prog [-1]).tag = .running ∧ (prog [-1]).script = [] ∧ InRange (prog [-1]).params (prog [-1]).ip = true ∧
        (prog [-1]).mem.read (prog [-1]).ip < 0) ∧
      (∃ n k : Nat, ((prog [30001]).mem.read (prog [30001]).ip % 100, n) ∈
          [((1 : Int), 3), (2, 3), (3, 1), (4, 1), (5, 2), (6, 2), (7, 3), (8, 3), (9, 1)] ∧
        k < n ∧ 3 ≤ (prog [30001]).mem.read (prog [30001]).ip / 10 ^ (k + 2) % 10) ∧
      ∃ n k : Nat, ((prog [904]).mem.read (prog [904]).ip % 100, n) ∈
          [((1 : Int), 3), (2, 3), (3, 1), (4, 1), (5, 2), (6, 2), (7, 3), (8, 3), (9, 1)] ∧
        k < n ∧ 3 ≤ (prog [904]).mem.read (prog [904]).ip / 10 ^ (k + 2) % 10 :=
  ⟨by decide, ⟨3, 2, by decide⟩, ⟨1, 0, by decide⟩⟩

/-- IP = 8 = capacity. -/
theorem witness_fetch_beyond :
    ({ loaded (small .sync .fault) [99] with ip := 8 } : State).tag = .running ∧
      ({ loaded (small .sync .fault) [99] with ip := 8 } : State).script = [] ∧
      ({ loaded (small .sync .fault) [99] with ip := 8 } : State).params.memWords = some 8 ∧ 8 ≤ 8 := by decide

theorem witness_precise_fault :
    (prog [1, -1, 0, 0, 99]).tag = .running ∧ (prog [1, -1, 0, 0, 99]).script = [] ∧
      (nextOf (step (prog [1, -1, 0, 0, 99]))).map State.tag = some .faulted := by decide

/-! ## Witnesses: frames and whole-machine rules -/

/-- A storing instruction and an input complete; with a parameter that names an address and one that names none. -/
theorem witness_store_frames :
    (nextOf (exec (.mul .position .immediate .position) (prog [1002, 4, 3, 4, 33]))).isSome = true ∧
      paramAddr (prog [1002, 4, 3, 4, 33]) 3 .position = some 4 ∧
      (nextOf (exec (.equals .position .position .immediate) (prog [10008, 0, 0, 4]))).isSome = true ∧
      paramAddr (prog [10008, 0, 0, 4]) 3 .immediate = none ∧
      (nextOf (exec (.input .position) { prog [3, 0, 99] with inq := [7] })).isSome = true ∧
      paramAddr { prog [3, 0, 99] with inq := [7] } 1 .position = some 0 ∧
      (nextOf (exec (.input .immediate) (progT [103, 0]))).isSome = true ∧
      paramAddr (progT [103, 0]) 1 .immediate = none ∧
      (nextOf (exec (.input .position) (progT [3, 0]))).map State.tag = some .awaitingInput ∧
      (progT [3, 0]).tag ≠ .awaitingInput := by decide

theorem witness_non_storing_frame :
    (Instr.output .immediate).writeParam = none ∧
      (nextOf (exec (.output .immediate) (progT [104, 5]))).isSome = true ∧ (progT [104, 5]).params.ioMode = .stream ∧
      Instr.halt.writeParam = none ∧ (nextOf (exec .halt (prog [99]))).isSome = true := by decide

/-- No turn pending; a Core turn next; an event that is not enabled next. -/
theorem witness_step_runs :
    (prog [99]).tag = .running ∧ InRange (prog [99]).params (prog [99]).ip = true ∧
      decode ((prog [99]).mem.read (prog [99]).ip) = .ok .halt ∧ (prog [99]).script = [] ∧
      ({ prog [99] with script := [.core] } : State).script = .core :: [] ∧
      ({ progT [99] with script := [.driver .take] } : State).script = .driver .take :: [] ∧
      driverStep .take { progT [99] with script := [.driver .take] } = .notEnabled := by decide

theorem witness_rb_written :
    (nextOf (step (prog [109, 19, 99]))).map State.rb = some 19 ∧ (prog [109, 19, 99]).rb ≠ 19 := by decide

/-- A step that grows MemLen (V29). -/
theorem witness_mem_len :
    (nextOf (step (prog [1, 20, 0, 0, 99]))).map State.memLen = some 21 ∧ (prog [1, 20, 0, 0, 99]).memLen = 5 := by decide

/-- A stream instance of image 42 after its fault: `take` is enabled and FAULT is full. -/
def faultedT : State :=
  { progT [42] with
    tag := .faulted, fault := some ⟨.invalidOpcode, 0, 42⟩, status := some (.faulted ⟨.invalidOpcode, 0, 42⟩)
    script := [.driver .take] }

theorem witness_fault_kept :
    faultedT.fault ≠ none ∧ faultedT.tag = .faulted ∧ (nextOf (step faultedT)).isSome = true := by decide

/-- The invariant holds of states that step: sync, and stream before and after a final status. -/
theorem witness_invariant :
    Inv (prog [1, 0, 0, 0, 99]) ∧ (nextOf (step (prog [1, 0, 0, 0, 99]))).isSome = true ∧ Inv (progT [3, 0]) ∧
      (nextOf (step (progT [3, 0]))).isSome = true ∧ Inv faultedT ∧ (nextOf (step faultedT)).isSome = true :=
  ⟨by decide, by decide, by decide, by decide, by decide, by decide⟩

theorem witness_constructions :
    (constructSync (small .sync .fault) [99] [127]).isSome = true ∧
      (constructStream (small .stream .wrap) [99] [.core, .driver .take]).isSome = true := by decide

/-! ## Witnesses: the driver -/

/-- A state with one driver event pending. -/
def pending (e : DriverEvent) (s : State) : State := { s with script := [.driver e] }

/-- The greatest Word into an empty slot; a full slot; a value one above the greatest Word. -/
theorem witness_send :
    ((pending (.send 9223372036854775807) (progT [99])).params.ioMode = .stream ∧
        (pending (.send 9223372036854775807) (progT [99])).script = .driver (.send 9223372036854775807) :: [] ∧
        Fits (progT [99]).params.wordBits 9223372036854775807 ∧
        (pending (.send 9223372036854775807) (progT [99])).inslot = none) ∧
      ((pending (.send 5) { progT [99] with inslot := some 1 }).script = .driver (.send 5) :: [] ∧
        (pending (.send 5) { progT [99] with inslot := some 1 }).inslot ≠ none) ∧
      ((pending (.send 9223372036854775808) (progT [99])).script = .driver (.send 9223372036854775808) :: [] ∧
        ¬ Fits (progT [99]).params.wordBits 9223372036854775808) := by decide

/-- Idle and Ended with STATUS empty; STATUS full; Running. -/
theorem witness_advance :
    ((pending .advance { progT [99] with tag := .idle }).params.ioMode = .stream ∧
        (pending .advance { progT [99] with tag := .idle }).script = .driver .advance :: [] ∧
        (pending .advance { progT [99] with tag := .idle }).status = none ∧
        (pending .advance { progT [99] with tag := .idle }).tag = .idle) ∧
      ((pending .advance { progT [99] with tag := .ended }).status = none ∧
        (pending .advance { progT [99] with tag := .ended }).tag = .ended) ∧
      (pending .advance { progT [99] with tag := .idle, status := some (.output 1) }).status ≠ none ∧
      (pending .advance (progT [99])).tag ≠ .idle ∧ (pending .advance (progT [99])).tag ≠ .ended := by decide

theorem witness_take :
    faultedT.params.ioMode = .stream ∧ faultedT.script = .driver .take :: [] ∧
      faultedT.status = some (.faulted ⟨.invalidOpcode, 0, 42⟩) ∧
      ({ faultedT with status := some (.terminated [99]) } : State).status = some (.terminated [99]) ∧
      ({ faultedT with status := some (.output 5) } : State).status = some (.output 5) ∧
      ({ faultedT with status := some .endOfStream } : State).status = some .endOfStream ∧
      ({ faultedT with status := none } : State).status = none := by decide

theorem witness_driver_event :
    driverStep .take faultedT = .done { faultedT with
      status := none, received := [.faulted ⟨.invalidOpcode, 0, 42⟩], tag := .ended } ∧
      (prog [99]).params.ioMode = .sync := by decide

theorem witness_waiting_input :
    (progT [3, 0]).params.ioMode = .stream ∧ (progT [3, 0]).tag = .running ∧ (progT [3, 0]).script = [] ∧
      (progT [3, 0]).inslot = none ∧ InRange (progT [3, 0]).params (progT [3, 0]).ip = true ∧
      decode ((progT [3, 0]).mem.read (progT [3, 0]).ip) = .ok (.input .position) ∧
      writable (progT [3, 0]) 1 .position = true := by decide

/-- Each STATE of the statement, with nothing pending. -/
theorem witness_no_step :
    ({ progT [99] with tag := .halted } : State).script = [] ∧
      faultOf (step { progT [99] with tag := .halted }) = some .halted ∧
      faultOf (step { progT [99] with tag := .faulted }) = some .faulted ∧
      faultOf (step { progT [99] with tag := .ended }) = some .ended ∧
      faultOf (step { progT [99] with tag := .idle }) = some .idle ∧
      faultOf (step { progT [99] with tag := .awaitingInput }) = some .awaitingInput ∧
      ({ progT [99] with tag := .awaitingInput } : State).inslot = none := by decide

theorem witness_send_commutes :
    (progT [104, 5]).tag = .running ∧ (progT [104, 5]).script = [] ∧
      (∀ dst, decode ((progT [104, 5]).mem.read (progT [104, 5]).ip) ≠ .ok (.input dst)) ∧
      (nextOf (step (progT [104, 5]))).isSome = true :=
  ⟨rfl, rfl, fun dst => by cases dst <;> decide, by decide⟩

/-! ## Witnesses: whole runs, each of one instruction -/

theorem witness_halt_first :
    (constructSync Params.default [1099, 7] [5]).isSome = true ∧
      ([1099, 7] : List Int).head?.map decode = some (.ok .halt) ∧ 1 ≤ 1 := by decide

theorem witness_run_success :
    Params.default.ioMode = .sync ∧ runSync 1 Params.default [99] [] = some (.ok [99] []) := by decide

theorem witness_run_fault :
    constructSync Params.default [42] [] = some (prog [42]) ∧
      ((runToEnd 1 (prog [42])).bind runResult) = some (.err ⟨.invalidOpcode, 0, 42⟩) ∧
      FaultKind.invalidOpcode ≠ .starvedInput := by decide

theorem witness_starved_stream :
    constructSync Params.default [3, 0] [] = some (prog [3, 0]) ∧
      ((runToEnd 1 (prog [3, 0])).bind runResult) = some (.err ⟨.starvedInput, 0, 0⟩) ∧
      (constructStream { Params.default with ioMode := .stream } [3, 0] []).isSome = true := by decide

theorem witness_run_starves :
    runSync 1 Params.default [3, 0] [] = some (.err ⟨.starvedInput, 0, 0⟩) ∧
      (constructStream { Params.default with ioMode := .stream } [3, 0] []).isSome = true := by decide

end Sys2Proof.Tests
end

/-! PROOFS. The statements of 20_memory.md: MemRead's checks and growth, and the snapshot. -/

namespace Sys2Proof.Machine

/-! ## The checks of an access -/

/-- `InRange` in the terms of R42 and R43: not negative, and below any finite capacity. -/
theorem inRange_iff {p : Params} {a : Int} :
    InRange p a = true ↔ 0 ≤ a ∧ ∀ cap : Nat, p.memWords = some cap → a < (cap : Int) := by
  unfold InRange
  cases p.memWords <;> simp

theorem accessFaultAt_of_neg {p : Params} {a : Int} (h : a < 0) :
    accessFaultAt p a = some (.invalidAddress, a) :=
  if_pos h

theorem accessFaultAt_of_capacity_le {p : Params} {a : Int} {cap : Nat} (h0 : 0 ≤ a)
    (hp : p.memWords = some cap) (hcap : (cap : Int) ≤ a) :
    accessFaultAt p a = some (.capacityExceeded, a) := by
  have hout : ¬ InRange p a = true := fun h => not_lt_of_ge hcap ((inRange_iff.mp h).2 cap hp)
  unfold accessFaultAt
  rw [if_neg (not_lt_of_ge h0), if_neg hout]

/-- Settles O11: below 0 and at or above the capacity the access has its fault; anywhere else it is in range. -/
theorem memReadChecksThenGrows : Obligations.MemReadChecksThenGrows := by
  intro a s
  refine ⟨fun hneg => ?_, fun cap h0 hp hcap => ?_, fun h0 hbelow => ?_⟩
  · exact memRead_of_fault (accessFaultAt_of_neg hneg)
  · exact memRead_of_fault (accessFaultAt_of_capacity_le h0 hp hcap)
  · exact memRead_of_inRange (inRange_iff.mpr ⟨h0, hbelow⟩)

/-! ## The snapshot and its delivery -/

@[simp] theorem State.snapshot_length (s : State) : s.snapshot.length = s.memLen := by
  simp [State.snapshot]

theorem State.snapshot_getElem? {s : State} {a : Nat} (h : a < s.memLen) :
    s.snapshot[a]? = some (s.mem.read a) := by
  simp [State.snapshot, h]

/-- halt with the sync controller (R125). -/
theorem exec_halt_of_sync {s : State} (h : s.params.ioMode = .sync) :
    exec .halt s = .next { s with tag := .halted } := by
  simp only [exec, execHalt, h]

/-- halt with the stream controller (R125): the snapshot posted is that of the state halt runs in. -/
theorem exec_halt_of_stream {s : State} (h : s.params.ioMode = .stream) :
    exec .halt s = .next (State.post { s with tag := .halted } (.terminated s.snapshot)) := by
  simp only [exec, execHalt, h]

theorem runResult_of_halted {s : State} (h : s.tag = .halted) : runResult s = some (.ok s.snapshot s.outq) := by
  simp only [runResult, h]

/-- Settles O14: the snapshot is a map over the addresses below MemLen, and halt is split by the I/O discipline. -/
theorem snapshotListsTheMemorySequence : Obligations.SnapshotListsTheMemorySequence := by
  intro s
  refine ⟨s.snapshot_length, fun _ => State.snapshot_getElem?, ?_⟩
  cases hmode : s.params.ioMode with
  | sync => exact ⟨_, exec_halt_of_sync hmode, nofun, fun _ => runResult_of_halted rfl⟩
  | stream => exact ⟨_, exec_halt_of_stream hmode, fun _ => State.post_status .., nofun⟩

end Sys2Proof.Machine

/-! PROOFS. The statements of 30_encoding.md: how a read parameter resolves. -/

namespace Sys2Proof.Machine

/-! ## Read parameters (R67 to R69) -/

/-- MemRead at a negative address (R42). -/
theorem memRead_of_neg {a : Int} {s : State} (h : a < 0) : memRead a s = .raised .invalidAddress a s :=
  memRead_of_fault (accessFaultAt_of_neg h)

@[simp] theorem resolveRead_position (raw : Int) (s : State) : resolveRead .position raw s = memRead raw s := rfl

@[simp] theorem resolveRead_immediate (raw : Int) (s : State) : resolveRead .immediate raw s = .ok raw s := rfl

@[simp] theorem resolveRead_relative (raw : Int) (s : State) :
    resolveRead .relative raw s = memRead (raw + s.rb) s := rfl

/-- Settles O16: Position and Relative are a MemRead at the address the mode names, so a negative one has MemRead's
fault; Immediate makes no access. -/
theorem readParametersResolveByMode : Obligations.ReadParametersResolveByMode := by
  intro raw s
  refine ⟨resolveRead_position raw s, fun hneg => ?_, resolveRead_immediate raw s, resolveRead_relative raw s,
    fun hneg => ?_⟩
  · rw [resolveRead_position, memRead_of_neg hneg]
  · rw [resolveRead_relative, memRead_of_neg hneg]

end Sys2Proof.Machine

/-! PROOFS. The statements of 30_encoding.md on the instruction word: which words decode, and to what. -/

namespace Sys2Proof

/-! ## The decoder as a condition on decimal digits (R58, R59, R63) -/

/-- The digits of `w` from digit `k` on are those of the modes, parameter 1 first (R59). -/
def HasModes (w : Nat) : Nat → List Mode → Prop
  | _, [] => True
  | k, m :: ms => digit w k = m.digit ∧ HasModes w (k + 1) ms

@[simp] theorem hasModes_nil (w k : Nat) : HasModes w k [] ↔ True := Iff.rfl

@[simp] theorem hasModes_cons (w k : Nat) (m : Mode) (ms : List Mode) :
    HasModes w k (m :: ms) ↔ digit w k = m.digit ∧ HasModes w (k + 1) ms := Iff.rfl

theorem hasModes_iff_getElem? (w k : Nat) (ms : List Mode) :
    HasModes w k ms ↔ ∀ (j : Nat) (m : Mode), ms[j]? = some m → digit w (k + j) = m.digit := by
  induction ms generalizing k with
  | nil => simp
  | cons m ms ih =>
    rw [hasModes_cons, ih]
    constructor
    · rintro ⟨hm, hms⟩ (- | j) m' hj
      · simpa [← Option.some.inj hj] using hm
      · rw [← hms j m' (by simpa using hj)]; congr 1; omega
    · intro h
      refine ⟨h 0 m rfl, fun j m' hj => ?_⟩
      rw [← h (j + 1) m' (by simpa using hj)]; congr 1; omega

theorem modeOfDigit_eq_some_iff (d : Nat) (m : Mode) : modeOfDigit d = some m ↔ d = m.digit := by
  rcases d with - | - | - | d <;> cases m <;> simp [modeOfDigit, Mode.digit]

theorem paramMode_eq_ok_iff (w i : Nat) (m : Mode) : paramMode w i = .ok m ↔ digit w (i + 1) = m.digit := by
  rw [← modeOfDigit_eq_some_iff, paramMode]
  cases modeOfDigit (digit w (i + 1)) <;> simp

theorem decode1_eq_ok_iff {w : Nat} {mk : Mode → Instr} {i : Instr} :
    decode1 w mk = .ok i ↔ ∃ a, HasModes w 2 [a] ∧ mk a = i := by
  simp only [hasModes_cons, hasModes_nil, and_true, ← paramMode_eq_ok_iff w 1]
  unfold decode1
  cases paramMode w 1 <;> simp

theorem decode2_eq_ok_iff {w : Nat} {mk : Mode → Mode → Instr} {i : Instr} :
    decode2 w mk = .ok i ↔ ∃ a b, HasModes w 2 [a, b] ∧ mk a b = i := by
  simp only [hasModes_cons, hasModes_nil, and_true, ← paramMode_eq_ok_iff w 1, ← paramMode_eq_ok_iff w 2]
  unfold decode2
  cases paramMode w 1 <;> cases paramMode w 2 <;> simp

theorem decode3_eq_ok_iff {w : Nat} {mk : Mode → Mode → Mode → Instr} {i : Instr} :
    decode3 w mk = .ok i ↔ ∃ a b c, HasModes w 2 [a, b, c] ∧ mk a b c = i := by
  simp only [hasModes_cons, hasModes_nil, and_true, ← paramMode_eq_ok_iff w 1, ← paramMode_eq_ok_iff w 2,
    ← paramMode_eq_ok_iff w 3]
  unfold decode3
  cases paramMode w 1 <;> cases paramMode w 2 <;> cases paramMode w 3 <;> simp

/-- A decoded word has the instruction's opcode and mode digits. -/
theorem digits_of_decodeNat {w : Nat} {i : Instr} (h : decodeNat w = .ok i) :
    w % 100 = i.opcode ∧ HasModes w 2 i.modes := by
  unfold decodeNat at h
  split at h
  case h_10 hop => cases h; exact ⟨hop, trivial⟩
  case h_11 => cases h
  case h_1 hop | h_2 hop | h_7 hop | h_8 hop =>
    obtain ⟨a, b, c, hm, rfl⟩ := decode3_eq_ok_iff.mp h
    exact ⟨hop, hm⟩
  case h_3 hop | h_4 hop | h_9 hop =>
    obtain ⟨a, hm, rfl⟩ := decode1_eq_ok_iff.mp h
    exact ⟨hop, hm⟩
  case h_5 hop | h_6 hop =>
    obtain ⟨a, b, hm, rfl⟩ := decode2_eq_ok_iff.mp h
    exact ⟨hop, hm⟩

/-- A word with an instruction's opcode and mode digits decodes to it. -/
theorem decodeNat_of_digits {w : Nat} {i : Instr} (hop : w % 100 = i.opcode) (hm : HasModes w 2 i.modes) :
    decodeNat w = .ok i := by
  cases i <;> simp only [Instr.opcode] at hop <;> simp only [decodeNat, hop]
  case add a b c | mul a b c | lessThan a b c | equals a b c => exact decode3_eq_ok_iff.mpr ⟨a, b, c, hm, rfl⟩
  case input a | output a | adjustBase a => exact decode1_eq_ok_iff.mpr ⟨a, hm, rfl⟩
  case jumpIfTrue a b | jumpIfFalse a b => exact decode2_eq_ok_iff.mpr ⟨a, b, hm, rfl⟩

theorem decode_natCast_eq_ok_iff {w : Nat} {i : Instr} :
    decode (w : Int) = .ok i ↔ w % 100 = i.opcode ∧ HasModes w 2 i.modes := by
  rw [decode, if_neg (Int.not_lt.mpr (Int.natCast_nonneg w)), Int.toNat_natCast]
  exact ⟨digits_of_decodeNat, fun ⟨hop, hm⟩ => decodeNat_of_digits hop hm⟩

theorem nonneg_of_decode {w : Int} {i : Instr} (h : decode w = .ok i) : 0 ≤ w := by
  by_contra hneg
  rw [decode, if_pos (Int.not_le.mp hneg)] at h
  cases h

/-! ## Decode and encode (R61, R79) -/

theorem Mode.digit_le_two (m : Mode) : m.digit ≤ 2 := by cases m <;> decide

theorem digit_succ (w k : Nat) : digit w (k + 1) = digit (w / 10) k := by
  unfold digit
  rw [pow_succ', Nat.div_div_eq_div_mul]

theorem hasModes_succ (w k : Nat) (ms : List Mode) : HasModes w (k + 1) ms ↔ HasModes (w / 10) k ms := by
  induction ms generalizing k with
  | nil => rfl
  | cons m ms ih => rw [hasModes_cons, hasModes_cons, ih, digit_succ]

/-- A number has the modes' digits from digit 0 on exactly when it is the modes' value with any digits above. -/
theorem hasModes_zero_iff_exists (v : Nat) (ms : List Mode) :
    HasModes v 0 ms ↔ ∃ x, v = modesValue ms + 10 ^ ms.length * x := by
  induction ms generalizing v with
  | nil => simp [modesValue]
  | cons m ms ih =>
    have hd := m.digit_le_two
    have hlow : digit v 0 = v % 10 := by simp [digit]
    rw [hasModes_cons, hasModes_succ, ih, hlow, modesValue, List.length_cons, ← exists_and_left]
    refine exists_congr fun x => ?_
    rw [pow_succ', mul_assoc]
    generalize 10 ^ ms.length * x = above
    omega

/-- A number has an instruction's opcode and mode digits exactly when it is the encoded word with any digits above. -/
theorem digits_iff_exists_encode (w : Nat) (i : Instr) :
    (w % 100 = i.opcode ∧ HasModes w 2 i.modes) ↔
      ∃ x : Nat, (w : Int) = encode i + 10 ^ (i.nparams + 2) * (x : Int) := by
  obtain ⟨hop, -, -, hlen⟩ := Laws.Shape.map_row i
  rw [hasModes_succ, hasModes_succ, hasModes_zero_iff_exists, hlen, ← exists_and_left]
  refine exists_congr fun x => ?_
  have hword : (w : Int) = encode i + 10 ^ (i.nparams + 2) * (x : Int) ↔
      w = i.opcode + 100 * modesValue i.modes + 100 * (10 ^ i.nparams * x) := by
    unfold encode
    rw [pow_add, mul_comm (10 ^ i.nparams) (10 ^ 2 : Int), mul_assoc]
    norm_cast
  rw [hword]
  generalize 10 ^ i.nparams * x = above
  omega

theorem encode_nonneg (i : Instr) : 0 ≤ encode i := Int.natCast_nonneg _

/-- Settles O4: both sides say that the word is not negative and has the instruction's opcode and mode digits. -/
theorem decodeInvertsEncode : Obligations.DecodeInvertsEncode := by
  intro w i
  constructor
  · intro h
    lift w to Nat using nonneg_of_decode h
    exact (digits_iff_exists_encode w i).mp (decode_natCast_eq_ok_iff.mp h)
  · rintro ⟨x, hx⟩
    lift w to Nat using hx ▸ add_nonneg (encode_nonneg i) (by positivity)
    exact decode_natCast_eq_ok_iff.mpr ((digits_iff_exists_encode w i).mpr ⟨x, hx⟩)

theorem decode_encode (i : Instr) : decode (encode i) = .ok i :=
  (decodeInvertsEncode _ i).mpr ⟨0, by simp⟩

/-! ## What the decoder accepts and what it reads -/

/-- Settles O3: the digits of a decoded word, read off one by one. -/
theorem decodedFieldsAreDecimalDigits : Obligations.DecodedFieldsAreDecimalDigits := by
  intro w i h
  lift w to Nat using nonneg_of_decode h
  obtain ⟨hop, hm⟩ := decode_natCast_eq_ok_iff.mp h
  refine ⟨by exact_mod_cast hop.symm, (Laws.Shape.map_row i).2.2.2, fun k m hk => ?_⟩
  have hdigit := (hasModes_iff_getElem? w 2 i.modes).mp hm k m hk
  rw [digit, add_comm 2 k] at hdigit
  exact_mod_cast hdigit.symm

/-- Each instruction is of a row of the map of R63. -/
theorem opcode_nparams_mem_map (i : Instr) :
    ((i.opcode : Int), i.nparams) ∈
      [((1 : Int), 3), (2, 3), (3, 1), (4, 1), (5, 2), (6, 2), (7, 3), (8, 3), (9, 1), (99, 0)] := by
  cases i <;> simp [Instr.opcode, Instr.nparams]

/-- Each row of the map of R63 has an instruction with any modes of its number. -/
theorem exists_instr_of_mem_map {op : Int} {n : Nat}
    (h : (op, n) ∈ [((1 : Int), 3), (2, 3), (3, 1), (4, 1), (5, 2), (6, 2), (7, 3), (8, 3), (9, 1), (99, 0)])
    (mode : Nat → Mode) :
    ∃ i : Instr, (i.opcode : Int) = op ∧ i.modes = (List.range n).map mode := by
  simp only [List.mem_cons, Prod.mk.injEq, List.not_mem_nil, or_false] at h
  rcases h with ⟨rfl, rfl⟩ | ⟨rfl, rfl⟩ | ⟨rfl, rfl⟩ | ⟨rfl, rfl⟩ | ⟨rfl, rfl⟩ | ⟨rfl, rfl⟩ | ⟨rfl, rfl⟩ |
    ⟨rfl, rfl⟩ | ⟨rfl, rfl⟩ | ⟨rfl, rfl⟩
  · exact ⟨.add (mode 0) (mode 1) (mode 2), rfl, rfl⟩
  · exact ⟨.mul (mode 0) (mode 1) (mode 2), rfl, rfl⟩
  · exact ⟨.input (mode 0), rfl, rfl⟩
  · exact ⟨.output (mode 0), rfl, rfl⟩
  · exact ⟨.jumpIfTrue (mode 0) (mode 1), rfl, rfl⟩
  · exact ⟨.jumpIfFalse (mode 0) (mode 1), rfl, rfl⟩
  · exact ⟨.lessThan (mode 0) (mode 1) (mode 2), rfl, rfl⟩
  · exact ⟨.equals (mode 0) (mode 1) (mode 2), rfl, rfl⟩
  · exact ⟨.adjustBase (mode 0), rfl, rfl⟩
  · exact ⟨.halt, rfl, rfl⟩

/-- The mode a digit encodes, Position for the digits 3 to 9 that encode none (R62). -/
def modeOrPosition (d : Nat) : Mode := (modeOfDigit d).getD .position

theorem digit_modeOrPosition {d : Nat} (h : d ≤ 2) : (modeOrPosition d).digit = d := by
  interval_cases d <;> rfl

/-- Settles O2: a decoded word has a row's opcode and mode digits; and a word with such digits is the encoding, but for
digits above, of the row's instruction with the modes they encode. -/
theorem decoderAcceptsExactlyTheMap : Obligations.DecoderAcceptsExactlyTheMap := by
  intro w
  constructor
  · rintro ⟨i, h⟩
    obtain ⟨hop, hlen, hdigits⟩ := decodedFieldsAreDecimalDigits w i h
    refine ⟨nonneg_of_decode h, i.nparams, hop ▸ opcode_nparams_mem_map i, fun k hk => ?_⟩
    rw [← hlen] at hk
    rw [← hdigits k _ (List.getElem?_eq_getElem hk)]
    exact_mod_cast Mode.digit_le_two _
  · rintro ⟨h0, n, hrow, hdigits⟩
    lift w to Nat using h0
    obtain ⟨i, hop, hmodes⟩ := exists_instr_of_mem_map hrow fun k => modeOrPosition (digit w (k + 2))
    refine ⟨i, decode_natCast_eq_ok_iff.mpr ⟨by exact_mod_cast hop.symm, ?_⟩⟩
    rw [hmodes, hasModes_iff_getElem?]
    intro k m hk
    obtain ⟨hkn, rfl⟩ : k < n ∧ modeOrPosition (digit w (k + 2)) = m := by
      simpa [List.getElem?_eq_some_iff] using hk
    rw [digit_modeOrPosition (by exact_mod_cast hdigits k hkn), add_comm]

/-- Settles O1: each word decoded by evaluation. -/
theorem sampleWordsDecode : Obligations.SampleWordsDecode := by
  unfold Obligations.SampleWordsDecode
  decide

end Sys2Proof

/-! PROOFS. What an instruction does, said once: it raises its first fault in the order of R137, or it completes. -/

namespace Sys2Proof.Machine

/-! ## Results -/

/-- The value `checked` gives where it raises nothing: the exact result where it fits, else the wrapped one (R13). -/
def reduced (W : Nat) (v : Int) : Int := if Fits W v then v else wrapWord W v

theorem reduced_of_fits {W : Nat} {v : Int} (h : Fits W v) : reduced W v = v := if_pos h

theorem reduced_fits {W : Nat} (hW : 1 ≤ W) (v : Int) : Fits W (reduced W v) := by
  unfold reduced
  split
  · assumption
  · exact fits_wrapWord hW v

theorem reduced_modEq (W : Nat) (v : Int) : reduced W v ≡ v [ZMOD 2 ^ W] := by
  unfold reduced
  split
  · exact Int.ModEq.refl v
  · simpa [Int.ModEq] using wrapWord_emod W v

theorem overflowFault_eq_none_iff (p : Params) (v : Int) (op : Nat) :
    overflowFault p v op = none ↔ (p.overflow = .fault → Fits p.wordBits v) := by
  unfold overflowFault
  split
  · next h => simp only [reduceCtorEq, false_iff]; exact fun hfits => h.2 (hfits h.1)
  · next h => exact iff_of_true rfl fun hf => not_not.mp fun hn => h ⟨hf, hn⟩

theorem overflowFault_of_not_fits {p : Params} {v : Int} (op : Nat) (hf : p.overflow = .fault)
    (h : ¬ Fits p.wordBits v) : overflowFault p v op = some (.overflow, (op : Int)) :=
  if_pos ⟨hf, h⟩

theorem checked_of_safe {v : Int} {op : Nat} {s : State} (h : overflowFault s.params v op = none) :
    checked v op s = .ok (reduced s.params.wordBits v) s := by
  by_cases hfits : Fits s.params.wordBits v
  · rw [checked_of_fits hfits, reduced_of_fits hfits]
  · cases hmode : s.params.overflow with
    | fault => exact absurd ((overflowFault_eq_none_iff ..).mp h hmode) hfits
    | wrap => rw [checked_of_wrap hfits hmode, reduced, if_neg hfits]

theorem checked_of_fault {v : Int} {op : Nat} {s : State} {k : FaultKind} {d : Int}
    (h : overflowFault s.params v op = some (k, d)) : checked v op s = .raised k d s := by
  unfold overflowFault at h
  split at h
  · next hf => cases h; exact checked_of_overflow hf.2 hf.1
  · cases h

/-! ## Parameters that resolve -/

theorem threeFault_eq_none_iff (s : State) (a b dst : Mode) :
    threeFault s a b dst = none ↔ (readable s 1 a = true ∧ readable s 2 b = true) ∧ writable s 3 dst = true := by
  unfold threeFault
  rw [Option.or_eq_none_iff, Option.or_eq_none_iff, readFault_eq_none_iff, readFault_eq_none_iff,
    writeFault_eq_none_iff]

theorem jumpParams_eq_none_iff (s : State) (c t : Mode) :
    (readFault s 1 c).or (readFault s 2 t) = none ↔ readable s 1 c = true ∧ readable s 2 t = true := by
  rw [Option.or_eq_none_iff, readFault_eq_none_iff, readFault_eq_none_iff]

/-! ## The state a complete instruction leaves -/

/-- The cycle `a, b, dst` with result `r` (R72): the result stored, MemLen grown over what is touched, IP after the
instruction. -/
def stored (s : State) (a b dst : Mode) (r : Int) : State :=
  { s with
    mem := s.mem.write (target s 3 dst) r
    memLen := grownTo s.memLen (touched s 1 a ++ touched s 2 b ++ touched s 3 dst)
    ip := s.ip + 4 }

/-- An input whose value `v` is there: `s` is the state without it (R85). -/
def inputStored (s : State) (dst : Mode) (v : Int) : State :=
  { s with
    mem := s.mem.write (target s 1 dst) v
    memLen := grownTo s.memLen (touched s 1 dst)
    ip := s.ip + 2 }

/-- An input that waits (R104). -/
def waiting (s : State) : State := { s with memLen := max s.memLen (s.ip + 2), tag := .awaitingInput }

/-- What an input leaves with its target resolving (R96, R104); a starved one raises its fault instead, and is
given `s`. -/
def inputCompleted (s : State) (dst : Mode) : State :=
  match s.params.ioMode with
  | .sync =>
    match s.inq with
    | [] => s
    | v :: rest => inputStored { s with inq := rest } dst v
  | .stream =>
    match s.inslot with
    | none => waiting s
    | some v => inputStored { s with inslot := none } dst v

/-- A jump with its test known (R110 to R112): the target, or the instruction after it. -/
def jumped (s : State) (c t : Mode) (isTaken : Bool) : State :=
  { s with
    memLen := grownTo s.memLen (touched s 1 c ++ touched s 2 t)
    ip := if isTaken then (operand s 2 t).toNat else s.ip + 3 }

/-- An instruction of one read parameter, before its effect: MemLen grown, IP after the instruction. -/
def afterOperand (s : State) (a : Mode) : State :=
  { s with memLen := grownTo s.memLen (touched s 1 a), ip := s.ip + 2 }

/-- What halt leaves (R125). -/
def haltCompleted (s : State) : State :=
  match s.params.ioMode with
  | .sync => { s with tag := .halted }
  | .stream => { s with tag := .halted, status := some (.terminated s.snapshot) }

/-- The state an instruction leaves where it raises no fault. -/
def completed (i : Instr) (s : State) : State :=
  match i with
  | .add a b dst => stored s a b dst (reduced s.params.wordBits (operand s 1 a + operand s 2 b))
  | .mul a b dst => stored s a b dst (reduced s.params.wordBits (operand s 1 a * operand s 2 b))
  | .input dst => inputCompleted s dst
  | .output a => chanPut (operand s 1 a) (afterOperand s a)
  | .jumpIfTrue c t => jumped s c t (decide (operand s 1 c ≠ 0))
  | .jumpIfFalse c t => jumped s c t (decide (operand s 1 c = 0))
  | .lessThan a b dst => stored s a b dst (lessThanWord (operand s 1 a) (operand s 2 b))
  | .equals a b dst => stored s a b dst (equalsWord (operand s 1 a) (operand s 2 b))
  | .adjustBase a => { afterOperand s a with rb := reduced s.params.wordBits (s.rb + operand s 1 a) }
  | .halt => haltCompleted s

/-! ## add and mul -/

theorem binaryToDst_checked_of_safe {s : State} {a b dst : Mode} {g : Int → Int → Int} {op : Nat}
    (h : (threeFault s a b dst).or (overflowFault s.params (g (operand s 1 a) (operand s 2 b)) op) = none) :
    binaryToDst a b dst (fun x y => checked (g x y) op) s =
      .next (stored s a b dst (reduced s.params.wordBits (g (operand s 1 a) (operand s 2 b)))) := by
  obtain ⟨hparams, hover⟩ := Option.or_eq_none_iff.mp h
  exact binaryToDst_of_safe hparams fun n => checked_of_safe (s := { s with memLen := n }) hover

theorem binaryToDst_checked_of_fault {s : State} {a b dst : Mode} {g : Int → Int → Int} {op : Nat} {k : FaultKind}
    {d : Int}
    (h : (threeFault s a b dst).or (overflowFault s.params (g (operand s 1 a) (operand s 2 b)) op) = some (k, d)) :
    ∃ n, GrownBy s n ∧ binaryToDst a b dst (fun x y => checked (g x y) op) s = .next (faultEntry s k d n) := by
  rcases Option.or_eq_some_iff.mp h with hparam | ⟨hparams, hover⟩
  · exact binaryToDst_of_fault hparam
  · exact binaryToDst_of_resultFault hparams fun n => checked_of_fault (s := { s with memLen := n }) hover

/-! ## input -/

/-- An input with its target resolving asks the channel on the state grown over its raw word. -/
theorem execInput_of_writable {s : State} {dst : Mode} (h : writeFault s 1 dst = none) :
    execInput dst s = finish (inputTo (target s 1 dst : Int) (s.grow (s.ip + 1))) := by
  rw [execInput, (writeParam_of_safe h).1]
  rfl

theorem inputCompleted_sync_cons {s : State} (dst : Mode) {v : Int} {rest : List Int} (hmode : s.params.ioMode = .sync)
    (hq : s.inq = v :: rest) : inputCompleted s dst = inputStored { s with inq := rest } dst v := by
  simp only [inputCompleted, hmode, hq]

theorem inputCompleted_stream_none {s : State} (dst : Mode) (hmode : s.params.ioMode = .stream)
    (hslot : s.inslot = none) : inputCompleted s dst = waiting s := by
  simp only [inputCompleted, hmode, hslot]

theorem inputCompleted_stream_some {s : State} (dst : Mode) {v : Int} (hmode : s.params.ioMode = .stream)
    (hslot : s.inslot = some v) : inputCompleted s dst = inputStored { s with inslot := none } dst v := by
  simp only [inputCompleted, hmode, hslot]

/-- An input that takes a value writes it to its target; `u` is the state without the value. -/
theorem finish_inputTo_value {t u : State} {dst : Mode} {v : Int} (h : writeFault u 1 dst = none)
    (htake : chanTake t = .value v (u.grow (u.ip + 1))) :
    finish (inputTo (target u 1 dst : Int) t) = .next (inputStored u dst v) := by
  obtain ⟨-, hin, htouched, -⟩ := writeParam_of_safe h
  unfold inputTo inputStored
  rw [htake, htouched]
  simp only
  rw [memWrite_of_inRange (by exact hin), andThen_ok, finish_ok, Int.toNat_natCast]
  rfl

/-- With its target resolving and the channel not starved, an input completes. -/
theorem execInput_of_safe {s : State} {dst : Mode} (h : writeFault s 1 dst = none) (hs : starvedFault s = none) :
    execInput dst s = .next (inputCompleted s dst) := by
  rw [execInput_of_writable h]
  cases hmode : s.params.ioMode with
  | sync =>
    cases hq : s.inq with
    | nil => simp [starvedFault, hmode, hq] at hs
    | cons v rest =>
      rw [inputCompleted_sync_cons dst hmode hq]
      exact finish_inputTo_value (u := { s with inq := rest }) h
        (chanTake_sync_cons (s := s.grow (s.ip + 1)) hmode hq)
  | stream =>
    cases hslot : s.inslot with
    | none =>
      rw [inputCompleted_stream_none dst hmode hslot, inputTo,
        chanTake_stream_none (s := s.grow (s.ip + 1)) hmode hslot]
      rfl
    | some v =>
      rw [inputCompleted_stream_some dst hmode hslot]
      exact finish_inputTo_value (u := { s with inslot := none }) h
        (chanTake_stream_some (s := s.grow (s.ip + 1)) hmode hslot)

/-- With its target resolving and no input left, a sync input raises StarvedInput (R96). -/
theorem execInput_of_starved {s : State} {dst : Mode} (h : writeFault s 1 dst = none) (hmode : s.params.ioMode = .sync)
    (hq : s.inq = []) :
    execInput dst s = .next (faultEntry s .starvedInput 0 (max s.memLen (s.ip + 2))) := by
  rw [execInput_of_writable h]
  unfold inputTo
  rw [chanTake_sync_nil (s := s.grow (s.ip + 1)) hmode hq]
  exact finish_raised_eq ..

theorem execInput_of_fault {s : State} {dst : Mode} {k : FaultKind} {d : Int}
    (h : (writeFault s 1 dst).or (starvedFault s) = some (k, d)) :
    ∃ n, GrownBy s n ∧ execInput dst s = .next (faultEntry s k d n) := by
  rcases Option.or_eq_some_iff.mp h with hparam | ⟨hparam, hstarved⟩
  · obtain ⟨n, hn, hw⟩ := writeParam_of_fault hparam
    exact ⟨n, hn, by rw [execInput, hw, andThen_raised, finish_raised_eq]⟩
  · unfold starvedFault at hstarved
    split at hstarved
    · next hst =>
      cases hstarved
      have hraw : InRange s.params ((s.ip + 1 : Nat) : Int) = true :=
        touched_inRange (.inr hparam) _ (by rw [(writeParam_of_safe hparam).2.2.1]; exact List.mem_cons_self ..)
      exact ⟨_, GrownBy.of_inRange hraw, execInput_of_starved hparam hst.1 hst.2⟩
    · cases hstarved

/-! ## output and adjust-base -/

theorem execOutput_of_safe {s : State} {a : Mode} (h : readFault s 1 a = none) :
    execOutput a s = .next (chanPut (operand s 1 a) (afterOperand s a)) := by
  rw [execOutput, readParam_of_safe h]
  rfl

theorem execOutput_of_fault {s : State} {a : Mode} {k : FaultKind} {d : Int} (h : readFault s 1 a = some (k, d)) :
    ∃ n, GrownBy s n ∧ execOutput a s = .next (faultEntry s k d n) := by
  obtain ⟨n, hn, hr⟩ := readParam_of_fault h
  exact ⟨n, hn, by rw [execOutput, hr, andThen_raised, finish_raised_eq]⟩

theorem execAdjustBase_of_safe {s : State} {a : Mode}
    (h : (readFault s 1 a).or (overflowFault s.params (s.rb + operand s 1 a) 9) = none) :
    execAdjustBase a s =
      .next { afterOperand s a with rb := reduced s.params.wordBits (s.rb + operand s 1 a) } := by
  obtain ⟨hparam, hover⟩ := Option.or_eq_none_iff.mp h
  rw [execAdjustBase, readParam_of_safe hparam, andThen_ok, checked_of_safe (by exact hover)]
  rfl

theorem execAdjustBase_of_fault {s : State} {a : Mode} {k : FaultKind} {d : Int}
    (h : (readFault s 1 a).or (overflowFault s.params (s.rb + operand s 1 a) 9) = some (k, d)) :
    ∃ n, GrownBy s n ∧ execAdjustBase a s = .next (faultEntry s k d n) := by
  rcases Option.or_eq_some_iff.mp h with hparam | ⟨hparam, hover⟩
  · obtain ⟨n, hn, hr⟩ := readParam_of_fault hparam
    exact ⟨n, hn, by rw [execAdjustBase, hr, andThen_raised, finish_raised_eq]⟩
  · refine ⟨_, GrownBy.grownTo (touched_inRange (.inl hparam)), ?_⟩
    rw [execAdjustBase, readParam_of_safe hparam, andThen_ok, checked_of_fault (by exact hover), andThen_raised,
      finish_raised_eq]

/-! ## The jumps -/

theorem jumpTo_of_nonneg {d : Int} (h : 0 ≤ d) (s : State) : jumpTo d s = .ok () { s with ip := d.toNat } :=
  if_neg (Int.not_lt.mpr h)

theorem jumpTo_of_neg {d : Int} (h : d < 0) (s : State) : jumpTo d s = .raised .invalidAddress d s := if_pos h

theorem jumpFault_eq_none_iff (isTaken : Bool) (d : Int) : jumpFault isTaken d = none ↔ (isTaken = true → 0 ≤ d) := by
  unfold jumpFault
  cases isTaken <;> simp

theorem jumpWhen_of_noFault {s : State} {taken : Int → Bool} {c t : Mode}
    (h : ((readFault s 1 c).or (readFault s 2 t)).or (jumpFault (taken (operand s 1 c)) (operand s 2 t)) = none) :
    jumpWhen taken c t s = .next (jumped s c t (taken (operand s 1 c))) := by
  obtain ⟨hparams, hjump⟩ := Option.or_eq_none_iff.mp h
  rw [jumpWhen_of_safe hparams, jumped]
  cases htaken : taken (operand s 1 c) with
  | false => rfl
  | true =>
    rw [htaken, jumpFault_eq_none_iff] at hjump
    rw [if_pos rfl, if_pos rfl, jumpTo_of_nonneg (hjump rfl), finish_ok]

/-- A jump that is taken to a negative target faults on the state grown over what its parameters touch (R112). -/
theorem jumpWhen_of_negative {s : State} {taken : Int → Bool} {c t : Mode}
    (h : (readFault s 1 c).or (readFault s 2 t) = none) (htaken : taken (operand s 1 c) = true)
    (hneg : operand s 2 t < 0) :
    jumpWhen taken c t s = .next (faultEntry s .invalidAddress (operand s 2 t)
      (grownTo s.memLen (touched s 1 c ++ touched s 2 t))) := by
  rw [jumpWhen_of_safe h, if_pos htaken, jumpTo_of_neg hneg, finish_raised_eq]

theorem jumpWhen_of_firstFault {s : State} {taken : Int → Bool} {c t : Mode} {k : FaultKind} {d : Int}
    (h : ((readFault s 1 c).or (readFault s 2 t)).or (jumpFault (taken (operand s 1 c)) (operand s 2 t)) =
      some (k, d)) :
    ∃ n, GrownBy s n ∧ jumpWhen taken c t s = .next (faultEntry s k d n) := by
  rcases Option.or_eq_some_iff.mp h with hparam | ⟨hparams, hjump⟩
  · exact jumpWhen_of_fault hparam
  · unfold jumpFault at hjump
    split at hjump
    · next hj =>
      cases hjump
      refine ⟨_, GrownBy.grownTo fun a ha => ?_, jumpWhen_of_negative hparams hj.1 hj.2⟩
      obtain ⟨hc, ht⟩ := Option.or_eq_none_iff.mp hparams
      exact (List.mem_append.mp ha).elim (touched_inRange (.inl hc) a) (touched_inRange (.inl ht) a)
    · cases hjump

/-! ## Every instruction -/

/-- An instruction whose first fault is none completes (R72). -/
theorem exec_of_safe {i : Instr} {s : State} (h : firstFault i s = none) : exec i s = .next (completed i s) := by
  cases i with
  | add a b dst => exact binaryToDst_checked_of_safe (g := (· + ·)) h
  | mul a b dst => exact binaryToDst_checked_of_safe (g := (· * ·)) h
  | input dst =>
    obtain ⟨hparam, hstarved⟩ := Option.or_eq_none_iff.mp h
    exact execInput_of_safe hparam hstarved
  | output a => exact execOutput_of_safe h
  | jumpIfTrue c t => exact jumpWhen_of_noFault h
  | jumpIfFalse c t => exact jumpWhen_of_noFault h
  | lessThan a b dst => exact binaryToDst_of_safe h fun _ => rfl
  | equals a b dst => exact binaryToDst_of_safe h fun _ => rfl
  | adjustBase a => exact execAdjustBase_of_safe h
  | halt =>
    show execHalt s = .next (haltCompleted s)
    unfold execHalt haltCompleted
    cases s.params.ioMode <;> rfl

/-- An instruction raises its first fault, with MemLen grown within the capacity and nothing else changed (R137). -/
theorem exec_of_fault {i : Instr} {s : State} {k : FaultKind} {d : Int} (h : firstFault i s = some (k, d)) :
    ∃ n, GrownBy s n ∧ exec i s = .next (faultEntry s k d n) := by
  cases i with
  | add a b dst => exact binaryToDst_checked_of_fault (g := (· + ·)) h
  | mul a b dst => exact binaryToDst_checked_of_fault (g := (· * ·)) h
  | input dst => exact execInput_of_fault h
  | output a => exact execOutput_of_fault h
  | jumpIfTrue c t => exact jumpWhen_of_firstFault h
  | jumpIfFalse c t => exact jumpWhen_of_firstFault h
  | lessThan a b dst => exact binaryToDst_of_fault h
  | equals a b dst => exact binaryToDst_of_fault h
  | adjustBase a => exact execAdjustBase_of_fault h
  | halt => cases h

end Sys2Proof.Machine

/-! PROOFS. The statements about single instructions: operands, results, channels, jumps, RB and halt. -/

namespace Sys2Proof.Machine

/-! ## Write parameters (R70, R71) -/

theorem resolveWrite_of_addr {i : Nat} {m : Mode} {raw d : Int} {s : State} (h : effAddr m raw s.rb = some d)
    (hin : InRange s.params d = true) : resolveWrite i m raw s = .ok d s := by
  simp only [resolveWrite, h, (accessFault_eq_none_iff _ _).mpr hin]

theorem resolveWrite_of_badAddr {i : Nat} {m : Mode} {raw a : Int} {s : State} {k : FaultKind} {d : Int}
    (h : effAddr m raw s.rb = some a) (hf : accessFaultAt s.params a = some (k, d)) :
    resolveWrite i m raw s = .raised k d s := by
  rw [accessFaultAt_eq, Option.map_eq_some_iff] at hf
  obtain ⟨k', hk, he⟩ := hf
  cases he
  simp only [resolveWrite, h, hk]

/-- Settles O17: Immediate names no address; the address of another mode is checked as an access is. -/
theorem writeParametersResolveToAddresses : Obligations.WriteParametersResolveToAddresses := by
  intro i raw s
  refine ⟨rfl, fun m d hd => ?_⟩
  have haddr : effAddr m raw s.rb = some d := by
    rcases hd with ⟨rfl, rfl⟩ | ⟨rfl, rfl⟩ <;> rfl
  refine ⟨fun hneg => ?_, fun cap h0 hp hcap => ?_, fun h0 hbelow => ?_⟩
  · exact resolveWrite_of_badAddr haddr (accessFaultAt_of_neg hneg)
  · exact resolveWrite_of_badAddr haddr (accessFaultAt_of_capacity_le h0 hp hcap)
  · exact resolveWrite_of_addr haddr (inRange_iff.mpr ⟨h0, hbelow⟩)

/-! ## add, mul and the compares -/

section ThreeParameters

variable {s : State} {a b dst : Mode}

theorem firstFault_add_eq_none_iff : firstFault (.add a b dst) s = none ↔
    threeFault s a b dst = none ∧
      (s.params.overflow = .fault → Fits s.params.wordBits (operand s 1 a + operand s 2 b)) :=
  Option.or_eq_none_iff.trans (and_congr_right' (overflowFault_eq_none_iff ..))

theorem firstFault_mul_eq_none_iff : firstFault (.mul a b dst) s = none ↔
    threeFault s a b dst = none ∧
      (s.params.overflow = .fault → Fits s.params.wordBits (operand s 1 a * operand s 2 b)) :=
  Option.or_eq_none_iff.trans (and_congr_right' (overflowFault_eq_none_iff ..))

theorem exec_add_of_fits (hsafe : firstFault (.add a b dst) s = none)
    (hfits : Fits s.params.wordBits (operand s 1 a + operand s 2 b)) :
    exec (.add a b dst) s = .next (stored s a b dst (operand s 1 a + operand s 2 b)) := by
  rw [exec_of_safe hsafe, completed, reduced_of_fits hfits]

theorem exec_mul_of_fits (hsafe : firstFault (.mul a b dst) s = none)
    (hfits : Fits s.params.wordBits (operand s 1 a * operand s 2 b)) :
    exec (.mul a b dst) s = .next (stored s a b dst (operand s 1 a * operand s 2 b)) := by
  rw [exec_of_safe hsafe, completed, reduced_of_fits hfits]

end ThreeParameters

/-- Settles O19: a result that fits is stored as it is. -/
theorem addAndMulStoreTheExactResult : Obligations.AddAndMulStoreTheExactResult := by
  intro s a b dst ha hb hdst
  have hparams := (threeFault_eq_none_iff s a b dst).mpr ⟨⟨ha, hb⟩, hdst⟩
  exact ⟨fun hfits => exec_add_of_fits (firstFault_add_eq_none_iff.mpr ⟨hparams, fun _ => hfits⟩) hfits,
    fun hfits => exec_mul_of_fits (firstFault_mul_eq_none_iff.mpr ⟨hparams, fun _ => hfits⟩) hfits⟩

/-- Settles O20: under wrap no result overflows, and the reduced result is the witness. -/
theorem wrapModeStoresTheReducedResult : Obligations.WrapModeStoresTheReducedResult := by
  intro s a b dst hW hwrap ha hb hdst
  have hparams := (threeFault_eq_none_iff s a b dst).mpr ⟨⟨ha, hb⟩, hdst⟩
  have hnoFault : s.params.overflow ≠ .fault := by simp [hwrap]
  exact ⟨⟨_, reduced_fits hW _, reduced_modEq _ _,
      exec_of_safe (firstFault_add_eq_none_iff.mpr ⟨hparams, fun hf => absurd hf hnoFault⟩)⟩,
    ⟨_, reduced_fits hW _, reduced_modEq _ _,
      exec_of_safe (firstFault_mul_eq_none_iff.mpr ⟨hparams, fun hf => absurd hf hnoFault⟩)⟩⟩

/-- Settles O22: the compares have no fault but those of their parameters. -/
theorem comparesStoreZeroOrOne : Obligations.ComparesStoreZeroOrOne := by
  intro s a b dst ha hb hdst
  have hparams := (threeFault_eq_none_iff s a b dst).mpr ⟨⟨ha, hb⟩, hdst⟩
  exact ⟨exec_of_safe (i := .lessThan a b dst) hparams, exec_of_safe (i := .equals a b dst) hparams⟩

/-- Settles O15: the add stores at an address in range, and memory reads there what was written. -/
theorem nextFetchSeesTheStore : Obligations.NextFetchSeesTheStore := by
  intro s a b dst hwf hsafe hfits
  have hwrite : writeFault s 3 dst = none :=
    (Option.or_eq_none_iff.mp (firstFault_add_eq_none_iff.mp hsafe).1).2
  obtain ⟨-, hin, -, -⟩ := writeParam_of_safe hwrite
  have hread := memRead_of_inRange (s := stored s a b dst (operand s 1 a + operand s 2 b)) hin
  rw [Int.toNat_natCast, stored, Memory.read_write_same hwf] at hread
  exact ⟨_, exec_add_of_fits hsafe hfits, rfl, _, hread⟩

/-! ## input and output -/

theorem starvedFault_eq_none_iff (s : State) :
    starvedFault s = none ↔ (s.params.ioMode = .sync → s.inq ≠ []) := by
  unfold starvedFault
  split <;> simp_all

theorem exec_input_of_writable {s : State} {dst : Mode} (h : writable s 1 dst = true)
    (hs : s.params.ioMode = .sync → s.inq ≠ []) : exec (.input dst) s = .next (inputCompleted s dst) :=
  execInput_of_safe ((writeFault_eq_none_iff ..).mpr h) ((starvedFault_eq_none_iff s).mpr hs)

/-- Settles O23, by whether INQ is empty. -/
theorem syncInputTakesTheFirstOrStarves : Obligations.SyncInputTakesTheFirstOrStarves := by
  intro s dst hmode hdst
  refine ⟨fun v rest hq => ?_, fun hq => ?_⟩
  · rw [exec_input_of_writable hdst (by simp [hq]), inputCompleted_sync_cons dst hmode hq]
    rfl
  · exact execInput_of_starved ((writeFault_eq_none_iff ..).mpr hdst) hmode hq

/-- Settles O24, by whether INSLOT is empty. -/
theorem streamInputTakesTheSlotOrWaits : Obligations.StreamInputTakesTheSlotOrWaits := by
  intro s dst hmode hdst
  rw [exec_input_of_writable hdst (by simp [hmode])]
  refine ⟨fun v hslot => ?_, fun hslot => ?_⟩
  · rw [inputCompleted_stream_some dst hmode hslot]
    rfl
  · rw [inputCompleted_stream_none dst hmode hslot]
    rfl

theorem exec_output_of_readable {s : State} {a : Mode} (h : readable s 1 a = true) :
    exec (.output a) s = .next (chanPut (operand s 1 a) (afterOperand s a)) :=
  execOutput_of_safe ((readFault_eq_none_iff ..).mpr h)

theorem step_of_script_nil {s : State} (h : s.script = []) : step s = coreStep s := by
  simp only [step, h]

theorem coreStep_of_idle {s : State} (h : s.tag = .idle) : coreStep s = .fault .idle := by
  simp only [coreStep, h]

/-- Settles O25, by the I/O discipline. -/
theorem outputEmitsItsOperand : Obligations.OutputEmitsItsOperand := by
  intro s a ha
  rw [exec_output_of_readable ha]
  refine ⟨fun hmode => ?_, fun hmode => ?_⟩
  · rw [chanPut_sync (s := afterOperand s a) hmode]
    rfl
  · rw [chanPut_stream (s := afterOperand s a) hmode]
    refine ⟨rfl, fun t ht hscript => ?_⟩
    cases ht
    rw [step_of_script_nil hscript, coreStep_of_idle rfl]

/-- `s` with the address that its Relative parameter 1 names as the raw word of parameter 1. -/
def shifted (s : State) : State := { s with mem := s.mem.write (s.ip + 1) (rawParam s 1 + s.rb) }

section Shifted

variable {s : State} (hwf : s.mem.wf)
include hwf

/-- The Position parameter of the shifted state names the address the Relative parameter names. -/
theorem paramAddr_shifted : paramAddr (shifted s) 1 .position = paramAddr s 1 .relative :=
  congrArg some (Memory.read_write_same hwf _ _)

theorem target_shifted : target (shifted s) 1 .position = target s 1 .relative := by
  rw [target, paramAddr_shifted hwf, target]

theorem touched_shifted : touched (shifted s) 1 .position = touched s 1 .relative := by
  rw [touched, paramAddr_shifted hwf, touched]
  rfl

theorem firstFault_shifted : firstFault (.input .position) (shifted s) = firstFault (.input .relative) s := by
  have hwrite : writeFault (shifted s) 1 .position = writeFault s 1 .relative := by
    rw [writeFault, paramAddr_shifted hwf, writeFault]
    rfl
  rw [firstFault, hwrite]
  rfl

/-- The two inputs that take the value `v` agree but at the raw word; `s` is the state without the value. -/
theorem inputStored_shifted (v : Int) :
    (inputStored s .relative v).ip = (inputStored (shifted s) .position v).ip ∧
      (inputStored s .relative v).memLen = (inputStored (shifted s) .position v).memLen ∧
      (inputStored s .relative v).inq = (inputStored (shifted s) .position v).inq ∧
      (inputStored s .relative v).inslot = (inputStored (shifted s) .position v).inslot ∧
      (inputStored s .relative v).mem.read (target s 1 .relative) =
        (inputStored (shifted s) .position v).mem.read (target s 1 .relative) ∧
      ∀ a, a ≠ s.ip + 1 →
        (inputStored s .relative v).mem.read a = (inputStored (shifted s) .position v).mem.read a := by
  simp only [inputStored, target_shifted hwf, touched_shifted hwf]
  have hread (a : Nat) (ha : a = target s 1 .relative ∨ a ≠ s.ip + 1) :
      (s.mem.write (target s 1 .relative) v).read a =
        ((shifted s).mem.write (target s 1 .relative) v).read a := by
    by_cases htarget : a = target s 1 .relative
    · rw [htarget, Memory.read_write_same hwf]
      exact (Memory.read_write_same (Memory.write_wf hwf _ _) _ _).symm
    · rw [Memory.read_write_of_ne _ _ htarget, Memory.read_write_of_ne _ _ htarget]
      exact (Memory.read_write_of_ne _ _ (ha.resolve_left htarget)).symm
  exact ⟨rfl, rfl, rfl, rfl, hread _ (.inl rfl), fun a ha => hread a (.inr ha)⟩

end Shifted

/-- Settles O18: the two parameters name one address, so the two inputs take the same value to the same target. -/
theorem relativeTargetEqualsShiftedPosition : Obligations.RelativeTargetEqualsShiftedPosition := by
  rintro s _ rfl hwf hsafe hslot
  refine ⟨_, _, exec_of_safe hsafe, exec_of_safe (s := shifted s) ((firstFault_shifted hwf).trans hsafe), ?_⟩
  simp only [completed]
  cases hmode : s.params.ioMode with
  | sync =>
    have hstarved : starvedFault s = none := (Option.or_eq_none_iff.mp hsafe).2
    obtain ⟨v, rest, hq⟩ := List.exists_cons_of_ne_nil ((starvedFault_eq_none_iff s).mp hstarved hmode)
    rw [inputCompleted_sync_cons _ hmode hq, inputCompleted_sync_cons (s := shifted s) _ hmode hq]
    exact inputStored_shifted (s := { s with inq := rest }) hwf v
  | stream =>
    obtain ⟨v, hv⟩ := Option.ne_none_iff_exists'.mp (hslot hmode)
    rw [inputCompleted_stream_some _ hmode hv, inputCompleted_stream_some (s := shifted s) _ hmode hv]
    exact inputStored_shifted (s := { s with inslot := none }) hwf v

/-! ## The jumps -/

theorem jumpWhen_of_taken {s : State} {taken : Int → Bool} {c t : Mode} (hc : readable s 1 c = true)
    (ht : readable s 2 t = true) (htaken : taken (operand s 1 c) = true) (h0 : 0 ≤ operand s 2 t) :
    jumpWhen taken c t s = .next (jumped s c t true) := by
  rw [jumpWhen_of_noFault, htaken]
  exact Option.or_eq_none_iff.mpr
    ⟨(jumpParams_eq_none_iff s c t).mpr ⟨hc, ht⟩, (jumpFault_eq_none_iff ..).mpr fun _ => h0⟩

theorem jumpWhen_of_notTaken {s : State} {taken : Int → Bool} {c t : Mode} (hc : readable s 1 c = true)
    (ht : readable s 2 t = true) (htaken : taken (operand s 1 c) = false) :
    jumpWhen taken c t s = .next (jumped s c t false) := by
  rw [jumpWhen_of_noFault, htaken]
  rw [htaken]
  exact Option.or_eq_none_iff.mpr ⟨(jumpParams_eq_none_iff s c t).mpr ⟨hc, ht⟩, rfl⟩

/-- Settles O26, by the jump and its test. -/
theorem jumpsSetIpOrFallThrough : Obligations.JumpsSetIpOrFallThrough := by
  intro s c t hc ht
  exact ⟨fun hcond h0 => jumpWhen_of_taken hc ht (decide_eq_true hcond) h0,
    fun hcond => jumpWhen_of_notTaken hc ht (decide_eq_false (not_not.mpr hcond)),
    fun hcond h0 => jumpWhen_of_taken hc ht (decide_eq_true hcond) h0,
    fun hcond => jumpWhen_of_notTaken hc ht (decide_eq_false hcond)⟩

/-- Settles O27: the shared cycle of the two jumps, taken to a negative target. -/
theorem takenNegativeJumpFaults : Obligations.TakenNegativeJumpFaults := by
  intro s c t hc ht hneg
  have hparams := (jumpParams_eq_none_iff s c t).mpr ⟨hc, ht⟩
  exact ⟨fun hcond => jumpWhen_of_negative hparams (decide_eq_true hcond) hneg,
    fun hcond => jumpWhen_of_negative hparams (decide_eq_true hcond) hneg⟩

/-! ## adjust-base and halt -/

theorem firstFault_adjustBase_eq_none_iff {s : State} {a : Mode} : firstFault (.adjustBase a) s = none ↔
    readable s 1 a = true ∧ (s.params.overflow = .fault → Fits s.params.wordBits (s.rb + operand s 1 a)) :=
  Option.or_eq_none_iff.trans (and_congr (readFault_eq_none_iff ..) (overflowFault_eq_none_iff ..))

/-- Settles O28: the sum reduced, which is the sum itself where it fits. -/
theorem adjustBaseAddsToRb : Obligations.AdjustBaseAddsToRb := by
  intro s a ha
  refine ⟨fun hfits => ?_, fun hW hwrap => ⟨_, reduced_fits hW _, reduced_modEq _ _, ?_⟩⟩
  · rw [exec_of_safe (firstFault_adjustBase_eq_none_iff.mpr ⟨ha, fun _ => hfits⟩), completed, reduced_of_fits hfits]
    rfl
  · exact exec_of_safe (firstFault_adjustBase_eq_none_iff.mpr ⟨ha, by simp [hwrap]⟩)

/-- Settles O29, by the I/O discipline. -/
theorem haltStopsWithTheSnapshot : Obligations.HaltStopsWithTheSnapshot :=
  fun _ => ⟨exec_halt_of_sync, exec_halt_of_stream⟩

/-! ## Faults of an instruction -/

/-- The first fault of an instruction is entered with MemLen not shrunk. -/
theorem exec_of_firstFault {i : Instr} {s : State} {k : FaultKind} {d : Int} (h : firstFault i s = some (k, d)) :
    ∃ n, s.memLen ≤ n ∧ exec i s = .next (faultEntry s k d n) := by
  obtain ⟨n, hn, he⟩ := exec_of_fault h
  exact ⟨n, hn.le, he⟩

/-- Settles O21: with the parameters resolving, the overflow is the first fault. -/
theorem overflowRaisesWithTheOpcode : Obligations.OverflowRaisesWithTheOpcode := by
  intro s a b dst hmode ha
  have hthree (hb : readable s 2 b = true) (hdst : writable s 3 dst = true) : threeFault s a b dst = none :=
    (threeFault_eq_none_iff s a b dst).mpr ⟨⟨ha, hb⟩, hdst⟩
  refine ⟨fun hb hdst hout => exec_of_firstFault ?_, fun hb hdst hout => exec_of_firstFault ?_,
    fun hout => exec_of_firstFault ?_⟩
  · rw [firstFault, hthree hb hdst, Option.none_or, overflowFault_of_not_fits 1 hmode hout]
    rfl
  · rw [firstFault, hthree hb hdst, Option.none_or, overflowFault_of_not_fits 2 hmode hout]
    rfl
  · rw [firstFault, (readFault_eq_none_iff s 1 a).mpr ha, Option.none_or, overflowFault_of_not_fits 9 hmode hout]
    rfl

/-- What an input leaves, one case for each state of the channel. -/
theorem inputCompleted_cases (s : State) (dst : Mode) :
    (s.params.ioMode = .sync ∧ s.inq = [] ∧ inputCompleted s dst = s) ∨
    (s.params.ioMode = .sync ∧ ∃ v rest, s.inq = v :: rest ∧
      inputCompleted s dst = inputStored { s with inq := rest } dst v) ∨
    (s.params.ioMode = .stream ∧ s.inslot = none ∧ inputCompleted s dst = waiting s) ∨
    (s.params.ioMode = .stream ∧ ∃ v, s.inslot = some v ∧
      inputCompleted s dst = inputStored { s with inslot := none } dst v) := by
  cases hmode : s.params.ioMode with
  | sync =>
    cases hq : s.inq with
    | nil => exact .inl ⟨rfl, rfl, by simp only [inputCompleted, hmode, hq]⟩
    | cons v rest => exact .inr (.inl ⟨rfl, v, rest, rfl, inputCompleted_sync_cons dst hmode hq⟩)
  | stream =>
    cases hslot : s.inslot with
    | none => exact .inr (.inr (.inl ⟨rfl, rfl, inputCompleted_stream_none dst hmode hslot⟩))
    | some v => exact .inr (.inr (.inr ⟨rfl, v, rfl, inputCompleted_stream_some dst hmode hslot⟩))

/-- What an output leaves, by the I/O discipline. -/
theorem completed_output_cases (s : State) (a : Mode) :
    (s.params.ioMode = .sync ∧
      completed (.output a) s = { afterOperand s a with outq := s.outq ++ [operand s 1 a] }) ∨
    (s.params.ioMode = .stream ∧
      completed (.output a) s = { afterOperand s a with status := some (.output (operand s 1 a)), tag := .idle }) := by
  cases hmode : s.params.ioMode with
  | sync => exact .inl ⟨rfl, chanPut_sync (s := afterOperand s a) hmode _⟩
  | stream => exact .inr ⟨rfl, chanPut_stream (s := afterOperand s a) hmode _⟩

/-- What halt leaves, by the I/O discipline. -/
theorem completed_halt_cases (s : State) :
    (s.params.ioMode = .sync ∧ completed .halt s = { s with tag := .halted }) ∨
    (s.params.ioMode = .stream ∧
      completed .halt s = { s with tag := .halted, status := some (.terminated s.snapshot) }) := by
  cases hmode : s.params.ioMode with
  | sync => exact .inl ⟨rfl, by simp only [completed, haltCompleted, hmode]⟩
  | stream => exact .inr ⟨rfl, by simp only [completed, haltCompleted, hmode]⟩

/-- The part of the state that a complete instruction keeps, and MemLen, which it only grows. -/
theorem completed_frame (i : Instr) (s : State) :
    (completed i s).params = s.params ∧ (completed i s).fault = s.fault ∧ (completed i s).script = s.script ∧
      (completed i s).received = s.received ∧ s.memLen ≤ (completed i s).memLen := by
  cases i with
  | input dst =>
    rw [completed]
    rcases inputCompleted_cases s dst with ⟨-, -, he⟩ | ⟨-, v, rest, -, he⟩ | ⟨-, -, he⟩ | ⟨-, v, -, he⟩ <;> rw [he]
    · exact ⟨rfl, rfl, rfl, rfl, le_refl _⟩
    · exact ⟨rfl, rfl, rfl, rfl, le_grownTo _ _⟩
    · exact ⟨rfl, rfl, rfl, rfl, le_max_left _ _⟩
    · exact ⟨rfl, rfl, rfl, rfl, le_grownTo _ _⟩
  | output a =>
    rcases completed_output_cases s a with ⟨-, he⟩ | ⟨-, he⟩ <;> rw [he] <;> exact ⟨rfl, rfl, rfl, rfl, le_grownTo _ _⟩
  | halt =>
    rcases completed_halt_cases s with ⟨-, he⟩ | ⟨-, he⟩ <;> rw [he] <;> exact ⟨rfl, rfl, rfl, rfl, le_refl _⟩
  | _ => exact ⟨rfl, rfl, rfl, rfl, le_grownTo _ _⟩

/-- A complete instruction keeps STATE, or waits, or pauses after an output, or is halt (R26). -/
theorem completed_tag_cases (i : Instr) (s : State) :
    (completed i s).tag = s.tag ∨
    ((completed i s).tag = .awaitingInput ∧ s.params.ioMode = .stream ∧ s.inslot = none) ∨
    ((completed i s).tag = .idle ∧ s.params.ioMode = .stream ∧ ∃ v, (completed i s).status = some (.output v)) ∨
    ((completed i s).tag = .halted ∧ i = .halt) := by
  cases i with
  | input dst =>
    rw [completed]
    rcases inputCompleted_cases s dst with ⟨-, -, he⟩ | ⟨-, v, rest, -, he⟩ | ⟨hmode, hslot, he⟩ | ⟨-, v, -, he⟩ <;>
      rw [he]
    · exact .inl rfl
    · exact .inl rfl
    · exact .inr (.inl ⟨rfl, hmode, hslot⟩)
    · exact .inl rfl
  | output a =>
    rcases completed_output_cases s a with ⟨-, he⟩ | ⟨hmode, he⟩ <;> rw [he]
    · exact .inl rfl
    · exact .inr (.inr (.inl ⟨rfl, hmode, _, rfl⟩))
  | halt => rcases completed_halt_cases s with ⟨-, he⟩ | ⟨-, he⟩ <;> rw [he] <;> exact .inr (.inr (.inr ⟨rfl, rfl⟩))
  | _ => exact .inl rfl

/-- No complete instruction becomes Faulted. -/
theorem tag_faulted_of_completed {i : Instr} {s : State} (h : (completed i s).tag = .faulted) : s.tag = .faulted := by
  rcases completed_tag_cases i s with hi | ⟨hi, -⟩ | ⟨hi, -⟩ | ⟨hi, -⟩ <;> rw [h] at hi
  · exact hi.symm
  all_goals cases hi

/-- Settles O30: with a first fault the instruction enters it, and with none it completes. -/
theorem instructionsRaiseExactlyTheFirstFault : Obligations.InstructionsRaiseExactlyTheFirstFault := by
  intro i s
  obtain ⟨-, hfault, -, -, -⟩ := completed_frame i s
  exact ⟨fun k d hf => exec_of_firstFault hf,
    fun hsafe => ⟨_, exec_of_safe hsafe, hfault, tag_faulted_of_completed⟩⟩

/-! ## Faults of parameter 1 with MemLen over its raw word alone -/

/-- A read parameter whose raw word can be fetched and whose address cannot be accessed. -/
theorem readParam_of_badAddr {s : State} {i : Nat} {m : Mode} {a : Int} {k : FaultKind} {d : Int}
    (hraw : rawInRange s i = true) (ha : paramAddr s i m = some a) (hf : accessFaultAt s.params a = some (k, d)) :
    readParam i m s = .raised k d { s with memLen := max s.memLen (s.ip + i + 1) } := by
  rw [readParam, memRead_of_inRange hraw, andThen_ok, Int.toNat_natCast, resolveRead]
  simp only [State.grow_rb]
  rw [show effAddr m (s.mem.read (s.ip + i)) s.rb = some a from ha]
  exact memRead_of_fault (s := s.grow (s.ip + i)) hf

/-- A write parameter whose raw word can be fetched and whose resolution raises. -/
theorem writeParam_of_badTarget {s : State} {i : Nat} {m : Mode} {k : FaultKind} {d : Int}
    (hraw : rawInRange s i = true)
    (hw : resolveWrite i m (rawParam s i) (s.grow (s.ip + i)) = .raised k d (s.grow (s.ip + i))) :
    writeParam i m s = .raised k d { s with memLen := max s.memLen (s.ip + i + 1) } := by
  rw [writeParam, memRead_of_inRange hraw, andThen_ok, Int.toNat_natCast]
  exact hw

/-- Settles O31: the missing target is the first fault, and an input asks for its target before its channel. -/
theorem immediateTargetFaults : Obligations.ImmediateTargetFaults := by
  intro s a b i
  refine ⟨fun ha hb hraw hi => ?_, fun hraw => ?_⟩
  · have hwrite : writeFault s 3 .immediate = some (.invalidWriteTarget, 3) := by
      rw [writeFault, rawFault, (accessFaultAt_eq_none_iff ..).mpr hraw]
      rfl
    have hthree : threeFault s a b .immediate = some (.invalidWriteTarget, 3) := by
      rw [threeFault, (jumpParams_eq_none_iff s a b).mpr ⟨ha, hb⟩, hwrite, Option.none_or]
    refine exec_of_firstFault ?_
    rcases hi with rfl | rfl | rfl | rfl <;> simp only [firstFault, hthree, Option.some_or]
  · have hw : writeParam 1 .immediate s = .raised .invalidWriteTarget 1 { s with memLen := max s.memLen (s.ip + 2) } :=
      writeParam_of_badTarget hraw rfl
    rw [exec, execInput, hw, andThen_raised, finish_raised_eq]

/-- Settles O32: the first stage of every instruction with parameters is its parameter 1, and it raises. -/
theorem negativeFirstAddressFaults : Obligations.NegativeFirstAddressFaults := by
  intro s i m a hhead hraw ha hneg
  have hf := accessFaultAt_of_neg (p := s.params) hneg
  have hread : readParam 1 m s = .raised .invalidAddress a { s with memLen := max s.memLen (s.ip + 2) } :=
    readParam_of_badAddr hraw ha hf
  have hwrite : writeParam 1 m s = .raised .invalidAddress a { s with memLen := max s.memLen (s.ip + 2) } :=
    writeParam_of_badTarget hraw (resolveWrite_of_badAddr (s := s.grow (s.ip + 1)) ha hf)
  cases i <;> simp only [Instr.modes, List.head?_cons, Option.some.injEq, List.head?_nil, reduceCtorEq] at hhead
  all_goals subst hhead
  case add | mul | lessThan | equals =>
    simp only [exec, execAdd, execMul, execLessThan, execEquals, binaryToDst, hread, andThen_raised, finish_raised_eq]
  case jumpIfTrue | jumpIfFalse =>
    simp only [exec, execJumpIfTrue, execJumpIfFalse, jumpWhen, hread, andThen_raised, finish_raised_eq]
  case input => rw [exec, execInput, hwrite, andThen_raised, finish_raised_eq]
  case output => rw [exec, execOutput, hread, andThen_raised, finish_raised_eq]
  case adjustBase => rw [exec, execAdjustBase, hread, andThen_raised, finish_raised_eq]

end Sys2Proof.Machine

/-! PROOFS. What a step of the machine can do, said once, and the statements that follow from it: fetch and decode
faults, the driver's events, the frames of the instructions and the rules of every step. -/

namespace Sys2Proof.Machine

/-! ## One instruction cycle (R72, R137) -/

/-- The first fault of the cycle at IP in the order of R137: the fetch, the decode, then the instruction's own. -/
def cycleFault (s : State) : Option (FaultKind × Int) :=
  (accessFaultAt s.params s.ip).or
    (match decode (s.mem.read s.ip) with
     | .error _ => some (.invalidOpcode, s.mem.read s.ip)
     | .ok i => firstFault i s)

theorem instructionStep_of_decode {s : State} {i : Instr} (hin : InRange s.params s.ip = true)
    (hd : decode (s.mem.read s.ip) = .ok i) : instructionStep s = exec i (s.grow s.ip) := by
  rw [instructionStep, fetchDecode_of_ok hin hd]
  rfl

theorem instructionStep_of_noDecode {s : State} (hin : InRange s.params s.ip = true)
    (hd : ∀ i, decode (s.mem.read s.ip) ≠ .ok i) :
    instructionStep s = .next (faultEntry s .invalidOpcode (s.mem.read s.ip) (max s.memLen (s.ip + 1))) := by
  rcases fetchDecode_cases s with ⟨i, -, hi, -⟩ | ⟨-, -, hf⟩ | ⟨k, d, hf, -⟩
  · exact absurd hi (hd i)
  · rw [instructionStep, hf]
    simp only
    rw [takeFault_eq]
    rfl
  · rw [(accessFaultAt_eq_none_iff ..).mpr hin] at hf
    cases hf

theorem instructionStep_of_fetchFault {s : State} {k : FaultKind} {d : Int}
    (h : accessFaultAt s.params s.ip = some (k, d)) : instructionStep s = .next (faultEntry s k d s.memLen) := by
  rw [instructionStep, fetchDecode, memRead_of_fault h, andThen_raised]
  simp only
  rw [takeFault_eq]

/-- A cycle with no fault completes the decoded instruction. -/
theorem instructionStep_of_safe {s : State} (h : cycleFault s = none) :
    ∃ i, decode (s.mem.read s.ip) = .ok i ∧ InRange s.params s.ip = true ∧ firstFault i s = none ∧
      instructionStep s = .next (completed i (s.grow s.ip)) := by
  obtain ⟨hfetch, hrest⟩ := Option.or_eq_none_iff.mp h
  have hin := (accessFaultAt_eq_none_iff ..).mp hfetch
  cases hd : decode (s.mem.read s.ip) with
  | error e => rw [hd] at hrest; cases hrest
  | ok i =>
    rw [hd] at hrest
    refine ⟨i, rfl, hin, hrest, ?_⟩
    rw [instructionStep_of_decode hin hd]
    exact exec_of_safe ((firstFault_memLen i s _).trans hrest)

/-- A cycle enters its first fault. -/
theorem instructionStep_of_fault {s : State} {k : FaultKind} {d : Int} (h : cycleFault s = some (k, d)) :
    ∃ n, GrownBy s n ∧ instructionStep s = .next (faultEntry s k d n) := by
  rcases Option.or_eq_some_iff.mp h with hfetch | ⟨hfetch, hrest⟩
  · exact ⟨_, GrownBy.refl s, instructionStep_of_fetchFault hfetch⟩
  · have hin := (accessFaultAt_eq_none_iff ..).mp hfetch
    cases hd : decode (s.mem.read s.ip) with
    | error e =>
      rw [hd] at hrest
      cases hrest
      exact ⟨_, GrownBy.of_inRange hin, instructionStep_of_noDecode hin (by simp [hd])⟩
    | ok i =>
      rw [hd] at hrest
      obtain ⟨n, hn, he⟩ := exec_of_fault (s := s.grow s.ip) ((firstFault_memLen i s _).trans hrest)
      exact ⟨n, (GrownBy.of_inRange hin).trans hn, (instructionStep_of_decode hin hd).trans he⟩

theorem coreStep_of_running {s : State} (h : s.tag = .running) : coreStep s = instructionStep s := by
  simp only [coreStep, h]

theorem step_of_running {s : State} (htag : s.tag = .running) (hscript : s.script = []) :
    step s = instructionStep s := by
  rw [step_of_script_nil hscript, coreStep_of_running htag]

theorem step_of_core {s : State} {rest : List Turn} (hscript : s.script = .core :: rest)
    (h : coreEnabled s = true) : step s = coreStep { s with script := rest } := by
  rw [step, hscript]
  exact if_pos h

theorem step_of_core_disabled {s : State} {rest : List Turn} (hscript : s.script = .core :: rest)
    (h : coreEnabled s = false) : step s = .next { s with script := rest } := by
  rw [step, hscript]
  exact if_neg (by simp [h])

theorem step_of_driver_done {s t : State} {e : DriverEvent} {rest : List Turn} (hscript : s.script = .driver e :: rest)
    (h : driverStep e s = .done t) : step s = .next { t with script := rest } := by
  simp only [step, hscript, h]

theorem step_of_driver_notEnabled {s : State} {e : DriverEvent} {rest : List Turn}
    (hscript : s.script = .driver e :: rest) (h : driverStep e s = .notEnabled) : step s = coreStep s := by
  simp only [step, hscript, h]

theorem step_of_driver_refused {s : State} {e : DriverEvent} {rest : List Turn} {r : Refusal}
    (hscript : s.script = .driver e :: rest) (h : driverStep e s = .refused r) : step s = .refused r := by
  simp only [step, hscript, h]

theorem coreEnabled_of_running {s : State} (h : s.tag = .running) : coreEnabled s = true := by
  simp only [coreEnabled, h]

/-! ## The moves of the two agents -/

/-- What a Core step can do: complete an instruction, enter a fault, or wake (R72, R89). -/
inductive CoreMove (s : State) : State → Prop
  | instr {i : Instr} (htag : s.tag = .running) (hd : decode (s.mem.read s.ip) = .ok i)
      (hin : InRange s.params s.ip = true) (hsafe : firstFault i s = none) : CoreMove s (completed i (s.grow s.ip))
  | fault {k : FaultKind} {d : Int} {n : Nat} (htag : s.tag = .running) (hn : GrownBy s n) :
      CoreMove s (faultEntry s k d n)
  | wake {v : Int} (htag : s.tag = .awaitingInput) (hslot : s.inslot = some v) : CoreMove s { s with tag := .running }

/-- What a driver event can do (R101, R102, R106). -/
inductive DriverMove (s : State) : DriverEvent → State → Prop
  | send {v : Int} (hfits : Fits s.params.wordBits v) (hslot : s.inslot = none) :
      DriverMove s (.send v) { s with inslot := some v }
  | start (hstatus : s.status = none) (htag : s.tag = .idle) : DriverMove s .advance { s with tag := .running }
  | answerEnd (hstatus : s.status = none) (htag : s.tag = .ended) : DriverMove s .advance (s.post .endOfStream)
  | take {st : Status} (hstatus : s.status = some st) :
      DriverMove s .take { s with
        status := none
        received := s.received ++ [st]
        tag := if st.isFinal then .ended else s.tag }

theorem instructionStep_next {s t : State} (htag : s.tag = .running) (h : instructionStep s = .next t) :
    CoreMove s t := by
  cases hf : cycleFault s with
  | none =>
    obtain ⟨i, hd, hin, hsafe, he⟩ := instructionStep_of_safe hf
    cases he.symm.trans h
    exact .instr htag hd hin hsafe
  | some kd =>
    obtain ⟨n, hn, he⟩ := instructionStep_of_fault hf
    cases he.symm.trans h
    exact .fault htag hn

theorem coreStep_next {s t : State} (h : coreStep s = .next t) : CoreMove s t := by
  unfold coreStep at h
  split at h
  next htag => exact instructionStep_next htag h
  next htag =>
    unfold wakeStep at h
    split at h
    next v hslot => cases h; exact .wake htag hslot
    next => cases h
  all_goals cases h

theorem driverAdvance_done {s t : State} (h : driverAdvance s = .done t) : DriverMove s .advance t := by
  unfold driverAdvance at h
  split at h
  next hstatus htag => cases h; exact .start hstatus htag
  next hstatus htag => cases h; exact .answerEnd hstatus htag
  next => cases h

theorem driverSend_done {s t : State} {v : Int} (h : driverSend v s = .done t) : DriverMove s (.send v) t := by
  unfold driverSend at h
  split at h
  next hfits =>
    split at h
    next hslot => cases h; exact .send hfits hslot
    next => cases h
  next => cases h

theorem driverTake_done {s t : State} (h : driverTake s = .done t) : DriverMove s .take t := by
  unfold driverTake at h
  split at h
  next => cases h
  next st hstatus => cases h; exact .take hstatus

section Stream

variable {s : State} (h : s.params.ioMode = .stream)
include h

theorem driverStep_send (v : Int) : driverStep (.send v) s = driverSend v s := by simp only [driverStep, h]

theorem driverStep_advance : driverStep .advance s = driverAdvance s := by simp only [driverStep, h]

theorem driverStep_take : driverStep .take s = driverTake s := by simp only [driverStep, h]

end Stream

theorem driverStep_of_sync {s : State} (h : s.params.ioMode = .sync) (e : DriverEvent) :
    driverStep e s = .notEnabled := by
  simp only [driverStep, h]

theorem driverStep_done {s t : State} {e : DriverEvent} (h : driverStep e s = .done t) :
    s.params.ioMode = .stream ∧ DriverMove s e t := by
  cases hmode : s.params.ioMode with
  | sync => rw [driverStep_of_sync hmode] at h; cases h
  | stream =>
    refine ⟨rfl, ?_⟩
    cases e with
    | send v => exact driverSend_done (driverStep_send hmode v ▸ h)
    | advance => exact driverAdvance_done (driverStep_advance hmode ▸ h)
    | take => exact driverTake_done (driverStep_take hmode ▸ h)

/-- What a step can do: a move of the Core, which may use up a Core turn; a Core turn passed; or a driver event. -/
theorem step_next {s t : State} (h : step s = .next t) :
    (∃ rest, CoreMove { s with script := rest } t) ∨ (∃ rest, t = { s with script := rest }) ∨
      ∃ e rest u, s.script = .driver e :: rest ∧ s.params.ioMode = .stream ∧ DriverMove s e u ∧
        t = { u with script := rest } := by
  cases hscript : s.script with
  | nil =>
    rw [step_of_script_nil hscript] at h
    exact .inl ⟨s.script, coreStep_next h⟩
  | cons turn rest =>
    cases turn with
    | core =>
      cases hen : coreEnabled s with
      | true => rw [step_of_core hscript hen] at h; exact .inl ⟨rest, coreStep_next h⟩
      | false =>
        rw [step_of_core_disabled hscript hen] at h
        cases h
        exact .inr (.inl ⟨rest, rfl⟩)
    | driver e =>
      cases hd : driverStep e s with
      | done u =>
        rw [step_of_driver_done hscript hd] at h
        cases h
        obtain ⟨hmode, hmove⟩ := driverStep_done hd
        exact .inr (.inr ⟨e, rest, u, rfl, hmode, hmove, rfl⟩)
      | notEnabled =>
        rw [step_of_driver_notEnabled hscript hd] at h
        exact .inl ⟨s.script, coreStep_next h⟩
      | refused r => rw [step_of_driver_refused hscript hd] at h; cases h

/-! ## Fetch and decode -/

/-- Settles O40: the three scripts leave the move to the Core, whose cycle is the decoded instruction's. -/
theorem stepRunsTheDecodedInstruction : Obligations.StepRunsTheDecodedInstruction := by
  intro s i htag hin hd
  refine ⟨fun hscript => ?_, fun rest hscript => ?_, fun e rest hscript hne => ?_⟩
  · rw [step_of_running htag hscript, instructionStep_of_decode hin hd]
    rfl
  · rw [step_of_core hscript (coreEnabled_of_running htag), coreStep_of_running (by exact htag),
      instructionStep_of_decode (by exact hin) (by exact hd)]
    rfl
  · rw [step_of_driver_notEnabled hscript hne, coreStep_of_running htag, instructionStep_of_decode hin hd]
    rfl

theorem step_of_noDecode {s : State} (htag : s.tag = .running) (hscript : s.script = [])
    (hin : InRange s.params s.ip = true) (hd : ∀ i, decode (s.mem.read s.ip) ≠ .ok i) :
    step s = .next (faultEntry s .invalidOpcode (s.mem.read s.ip) (max s.memLen (s.ip + 1))) := by
  rw [step_of_running htag hscript, instructionStep_of_noDecode hin hd]

/-- Settles O33: a decoded word would have an opcode of the map. -/
theorem unknownOpcodeRaisesInvalidOpcode : Obligations.UnknownOpcodeRaisesInvalidOpcode := by
  intro s htag hscript hin _ hop
  refine step_of_noDecode htag hscript hin fun i hd => hop ?_
  obtain ⟨hopcode, -, -⟩ := decodedFieldsAreDecimalDigits _ i hd
  rw [← hopcode]
  cases i <;> simp [Instr.opcode]

/-- The map of R63 gives each opcode one parameter count. -/
theorem nparams_of_mem_map {i : Instr} {n : Nat}
    (h : ((i.opcode : Int), n) ∈
      [((1 : Int), 3), (2, 3), (3, 1), (4, 1), (5, 2), (6, 2), (7, 3), (8, 3), (9, 1)]) : n = i.nparams := by
  cases i <;> simp [Instr.opcode] at h <;> exact h

/-- Settles O34: a decoded word is not negative and each mode digit it uses is at most 2. -/
theorem negativeOrBadModeWordRaisesInvalidOpcode : Obligations.NegativeOrBadModeWordRaisesInvalidOpcode := by
  intro s htag hscript hin hbad
  refine step_of_noDecode htag hscript hin fun i hd => ?_
  rcases hbad with hneg | ⟨n, k, hrow, hk, hdigit⟩
  · exact absurd (nonneg_of_decode hd) (Int.not_le.mpr hneg)
  · obtain ⟨hopcode, hlen, hdigits⟩ := decodedFieldsAreDecimalDigits _ i hd
    rw [← hopcode] at hrow
    rw [nparams_of_mem_map hrow, ← hlen] at hk
    rw [← hdigits k _ (List.getElem?_eq_getElem hk)] at hdigit
    have hle := Mode.digit_le_two i.modes[k]
    omega

/-- Settles O35: the fetch is the first stage, and its fault leaves MemLen. -/
theorem fetchBeyondCapacityFaults : Obligations.FetchBeyondCapacityFaults := by
  intro s cap htag hscript hcap hle
  rw [step_of_running htag hscript]
  exact instructionStep_of_fetchFault
    (accessFaultAt_of_capacity_le (Int.natCast_nonneg _) hcap (by exact_mod_cast hle))

/-- Settles O36: a Core step from Running that ends Faulted is a fault entry, since no complete instruction ends
there. -/
theorem faultsArePrecise : Obligations.FaultsArePrecise := by
  intro s t htag hscript hstep hfaulted
  rw [step_of_running htag hscript] at hstep
  cases instructionStep_next htag hstep with
  | @instr i => exact absurd (htag.symm.trans (tag_faulted_of_completed (s := s.grow s.ip) hfaulted)) (by decide)
  | fault _ hn =>
    exact ⟨rfl, rfl, rfl, fun _ => rfl, hn.le, rfl, rfl, rfl, rfl, rfl, _, rfl, rfl, rfl⟩
  | wake => cases hfaulted

/-! ## Frames -/

/-- What an instruction that has a next state does: it completes, or it enters its first fault. -/
theorem exec_next {i : Instr} {s t : State} (h : exec i s = .next t) :
    (firstFault i s = none ∧ t = completed i s) ∨ ∃ k d n, GrownBy s n ∧ t = faultEntry s k d n := by
  cases hf : firstFault i s with
  | none =>
    rw [exec_of_safe hf] at h
    cases h
    exact .inl ⟨rfl, rfl⟩
  | some kd =>
    obtain ⟨n, hn, he⟩ := exec_of_fault hf
    cases he.symm.trans h
    exact .inr ⟨_, _, n, hn, rfl⟩

/-- A write through a parameter that resolves leaves every address but the one the parameter names. -/
theorem read_write_target_of_ne {s : State} {i : Nat} {m : Mode} (h : writeFault s i m = none) {d : Int}
    (hd : paramAddr s i m = some d) (mem : Memory) (v : Int) {x : Nat} (hx : (x : Int) ≠ d) :
    (mem.write (target s i m) v).read x = mem.read x := by
  obtain ⟨-, -, -, haddr⟩ := writeParam_of_safe h
  cases haddr.symm.trans hd
  exact Memory.read_write_of_ne _ _ fun he => hx (by rw [he])

/-- A write parameter that names no address does not resolve. -/
theorem not_safe_of_paramAddr_none {s : State} {i : Nat} {m : Mode} (h : writeFault s i m = none)
    (hnone : paramAddr s i m = none) : False := by
  obtain ⟨-, -, -, haddr⟩ := writeParam_of_safe h
  exact Option.some_ne_none _ (haddr.symm.trans hnone)

/-- The four instructions that store to parameter 3 complete with their parameters resolved and a result stored. -/
theorem completed_eq_stored {s : State} {a b dst : Mode} {i : Instr}
    (hi : i = .add a b dst ∨ i = .mul a b dst ∨ i = .lessThan a b dst ∨ i = .equals a b dst)
    (hsafe : firstFault i s = none) : writeFault s 3 dst = none ∧ ∃ r, completed i s = stored s a b dst r := by
  have hthree : threeFault s a b dst = none := by
    rcases hi with rfl | rfl | rfl | rfl
    · exact (Option.or_eq_none_iff.mp hsafe).1
    · exact (Option.or_eq_none_iff.mp hsafe).1
    · exact hsafe
    · exact hsafe
  refine ⟨(Option.or_eq_none_iff.mp hthree).2, ?_⟩
  rcases hi with rfl | rfl | rfl | rfl <;> exact ⟨_, rfl⟩

/-- Settles O37: the result is stored at the target, or a fault is entered. -/
theorem threeParameterStoreFrame : Obligations.ThreeParameterStoreFrame := by
  intro s t a b dst i hi hexec
  rcases exec_next hexec with ⟨hsafe, rfl⟩ | ⟨k, d, n, hn, rfl⟩
  · obtain ⟨hwrite, r, hr⟩ := completed_eq_stored hi hsafe
    rw [hr]
    exact ⟨fun d hd x hx => read_write_target_of_ne hwrite hd _ _ hx,
      fun hnone => (not_safe_of_paramAddr_none hwrite hnone).elim,
      rfl, rfl, rfl, rfl, rfl, rfl, rfl, le_grownTo _ _, .inl ⟨rfl, rfl, rfl⟩⟩
  · exact ⟨fun _ _ _ _ => rfl, fun _ _ => rfl, rfl, rfl, rfl, rfl, rfl, rfl, rfl, hn.le, .inr ⟨rfl, rfl, rfl⟩⟩

/-- Settles O38, by the state of the channel where the input completes. -/
theorem inputFrame : Obligations.InputFrame := by
  intro s t dst hexec
  rcases exec_next hexec with ⟨hsafe, rfl⟩ | ⟨k, d, n, hn, rfl⟩
  · have hwrite : writeFault s 1 dst = none := (Option.or_eq_none_iff.mp hsafe).1
    rw [completed]
    rcases inputCompleted_cases s dst with ⟨hmode, hq, he⟩ | ⟨hmode, v, rest, hq, he⟩ | ⟨hmode, hslot, he⟩ |
      ⟨hmode, v, hslot, he⟩ <;> rw [he]
    · exact ⟨fun _ _ _ _ => rfl, fun _ _ => rfl, fun _ _ _ => rfl, rfl, rfl, rfl, rfl, rfl,
        fun _ => ⟨rfl, .inl rfl⟩, fun _ => ⟨rfl, .inl rfl⟩, le_refl _, .inl ⟨rfl, rfl, .inl rfl⟩⟩
    · exact ⟨fun d hd x hx => read_write_target_of_ne hwrite hd _ _ hx,
        fun hnone => (not_safe_of_paramAddr_none hwrite hnone).elim,
        fun htag hne => absurd htag hne, rfl, rfl, rfl, rfl, rfl, fun _ => ⟨rfl, .inr (by rw [hq]; rfl)⟩,
        fun hm => absurd (hmode.symm.trans hm) (by decide), le_grownTo _ _, .inl ⟨rfl, rfl, .inl rfl⟩⟩
    · exact ⟨fun _ _ _ _ => rfl, fun _ _ => rfl, fun _ _ _ => rfl, rfl, rfl, rfl, rfl, rfl,
        fun hm => absurd (hmode.symm.trans hm) (by decide), fun _ => ⟨rfl, .inl rfl⟩, le_max_left _ _,
        .inl ⟨rfl, rfl, .inr rfl⟩⟩
    · exact ⟨fun d hd x hx => read_write_target_of_ne hwrite hd _ _ hx,
        fun hnone => (not_safe_of_paramAddr_none hwrite hnone).elim,
        fun htag hne => absurd htag hne, rfl, rfl, rfl, rfl, rfl, fun hm => absurd (hmode.symm.trans hm) (by decide),
        fun _ => ⟨rfl, .inr rfl⟩, le_grownTo _ _, .inl ⟨rfl, rfl, .inl rfl⟩⟩
  · exact ⟨fun _ _ _ _ => rfl, fun _ _ => rfl, fun _ _ _ => rfl, rfl, rfl, rfl, rfl, rfl,
      fun _ => ⟨rfl, .inl rfl⟩, fun _ => ⟨rfl, .inl rfl⟩, hn.le, .inr ⟨rfl, rfl, rfl⟩⟩

/-- Settles O39, by the instruction; halt raises no fault. -/
theorem nonStoringFrame : Obligations.NonStoringFrame := by
  intro s t i hi hexec
  rcases exec_next hexec with ⟨-, rfl⟩ | ⟨k, d, n, hn, rfl⟩
  · cases i with
    | add | mul | input | lessThan | equals => cases hi
    | output a =>
      rcases completed_output_cases s a with ⟨hmode, he⟩ | ⟨hmode, he⟩ <;> rw [he]
      · exact ⟨fun _ => rfl, rfl, rfl, rfl, rfl, rfl, rfl, fun _ => rfl,
          fun h => h.elim (fun h => absurd rfl (h a)) fun hm => absurd (hmode.symm.trans hm) (by decide),
          le_grownTo _ _, nofun, .inl ⟨rfl, fun h => absurd rfl (h a)⟩⟩
      · exact ⟨fun _ => rfl, rfl, rfl, rfl, rfl, rfl, rfl, fun _ => rfl, fun _ => rfl, le_grownTo _ _, nofun,
          .inl ⟨rfl, fun h => absurd rfl (h a)⟩⟩
    | jumpIfTrue | jumpIfFalse =>
      exact ⟨fun _ => rfl, rfl, rfl, rfl, rfl, rfl, rfl, fun _ => rfl, fun _ => rfl, le_grownTo _ _, nofun,
        .inl ⟨rfl, fun _ _ => ⟨rfl, rfl⟩⟩⟩
    | adjustBase a =>
      exact ⟨fun _ => rfl, rfl, rfl, rfl, rfl, rfl, rfl, fun h => absurd rfl (h a), fun _ => rfl, le_grownTo _ _, nofun,
        .inl ⟨rfl, fun _ _ => ⟨rfl, rfl⟩⟩⟩
    | halt =>
      rcases completed_halt_cases s with ⟨-, he⟩ | ⟨-, he⟩ <;> rw [he] <;>
      exact ⟨fun _ => rfl, rfl, rfl, rfl, rfl, rfl, rfl, fun _ => rfl, fun _ => rfl, le_refl _,
        fun _ => ⟨rfl, rfl, rfl⟩, .inl ⟨rfl, fun _ h => absurd rfl h⟩⟩
  · refine ⟨fun _ => rfl, rfl, rfl, rfl, rfl, rfl, rfl, fun _ => rfl, fun _ => rfl, hn.le, ?_, .inr ⟨rfl, rfl⟩⟩
    rintro rfl
    rcases completed_halt_cases s with ⟨-, he⟩ | ⟨-, he⟩ <;>
    · rw [exec_of_safe rfl, he] at hexec
      exact absurd (congrArg State.tag (Host.Outcome.next.inj hexec)) (by simp [faultEntry])

/-! ## Rules of every step -/

/-- Of the complete instructions, adjust-base alone writes RB. -/
theorem completed_rb {i : Instr} (hi : ∀ m, i ≠ .adjustBase m) (s : State) : (completed i s).rb = s.rb := by
  cases i with
  | input dst =>
    rw [completed]
    rcases inputCompleted_cases s dst with ⟨-, -, he⟩ | ⟨-, v, rest, -, he⟩ | ⟨-, -, he⟩ | ⟨-, v, -, he⟩ <;>
      rw [he] <;> rfl
  | output a => rcases completed_output_cases s a with ⟨-, he⟩ | ⟨-, he⟩ <;> rw [he] <;> rfl
  | halt => rcases completed_halt_cases s with ⟨-, he⟩ | ⟨-, he⟩ <;> rw [he]
  | adjustBase m => exact absurd rfl (hi m)
  | _ => rfl

/-- Settles O41: the other moves leave RB. -/
theorem onlyAdjustBaseWritesRb : Obligations.OnlyAdjustBaseWritesRb := by
  intro s t hstep hrb
  rcases step_next hstep with ⟨rest, hmove⟩ | ⟨rest, rfl⟩ | ⟨e, rest, u, -, -, hmove, rfl⟩
  · cases hmove with
    | @instr i htag hd =>
      by_cases hi : ∃ m, i = .adjustBase m
      · obtain ⟨m, rfl⟩ := hi
        exact ⟨htag, m, hd⟩
      · exact absurd (completed_rb (fun m hm => hi ⟨m, hm⟩) _) hrb
    | fault => exact absurd rfl hrb
    | wake => exact absurd rfl hrb
  · exact absurd rfl hrb
  · cases hmove <;> exact absurd rfl hrb

/-- Settles O42: a complete instruction and a fault entry only grow MemLen; the other moves leave it. -/
theorem memLenNeverShrinks : Obligations.MemLenNeverShrinks := by
  intro s t hstep
  rcases step_next hstep with ⟨rest, hmove⟩ | ⟨rest, rfl⟩ | ⟨e, rest, u, -, -, hmove, rfl⟩
  · cases hmove with
    | @instr i =>
      obtain ⟨-, -, -, -, hlen⟩ := completed_frame i (State.grow { s with script := rest } s.ip)
      exact le_trans (le_max_left _ _) hlen
    | fault _ hn => exact hn.le
    | wake => exact le_refl _
  · exact le_refl _
  · cases hmove <;> exact le_refl _

/-- Settles O43: FAULT is written by a fault entry alone, from Running. -/
theorem parametersAndFaultAreNeverCleared : Obligations.ParametersAndFaultAreNeverCleared := by
  intro s t hstep
  rcases step_next hstep with ⟨rest, hmove⟩ | ⟨rest, rfl⟩ | ⟨e, rest, u, -, -, hmove, rfl⟩
  · cases hmove with
    | @instr i =>
      obtain ⟨hparams, hfault, -, -, -⟩ := completed_frame i (State.grow { s with script := rest } s.ip)
      exact ⟨hparams, fun h => by rw [hfault]; exact h, fun _ => hfault⟩
    | fault htag =>
      refine ⟨rfl, fun _ => Option.some_ne_none _, fun h => ?_⟩
      rcases h with h | h <;> exact absurd (h.symm.trans htag) (by decide)
    | wake => exact ⟨rfl, id, fun _ => rfl⟩
  · exact ⟨rfl, id, fun _ => rfl⟩
  · cases hmove <;> exact ⟨rfl, id, fun _ => rfl⟩

/-! ## The driver -/

/-- Settles O49: the slot and the value decide whether the event is enabled. -/
theorem sendFillsTheEmptySlot : Obligations.SendFillsTheEmptySlot := by
  intro s v rest hmode hscript
  have hsend : driverStep (.send v) s = driverSend v s := driverStep_send hmode v
  refine ⟨fun hfits hslot => ?_, fun hfits hslot => ?_, fun hfits => ?_⟩
  · exact step_of_driver_done hscript (t := { s with inslot := some v })
      (by rw [hsend, driverSend, if_pos hfits, hslot])
  · obtain ⟨w, hw⟩ := Option.ne_none_iff_exists'.mp hslot
    exact step_of_driver_notEnabled hscript (by rw [hsend, driverSend, if_pos hfits, hw])
  · exact step_of_driver_refused hscript (by rw [hsend, driverSend, if_neg hfits])

theorem driverAdvance_of_status {s : State} (h : s.status ≠ none) : driverAdvance s = .notEnabled := by
  unfold driverAdvance
  split
  next hstatus _ => exact absurd hstatus h
  next hstatus _ => exact absurd hstatus h
  next => rfl

theorem driverAdvance_of_tag {s : State} (hidle : s.tag ≠ .idle) (hended : s.tag ≠ .ended) :
    driverAdvance s = .notEnabled := by
  unfold driverAdvance
  split
  next _ htag => exact absurd htag hidle
  next _ htag => exact absurd htag hended
  next => rfl

/-- Settles O50, by STATUS and STATE. -/
theorem advanceStartsTheCoreOrAnswersEnd : Obligations.AdvanceStartsTheCoreOrAnswersEnd := by
  intro s rest hmode hscript
  have hadvance : driverStep .advance s = driverAdvance s := driverStep_advance hmode
  refine ⟨fun hstatus htag => ?_, fun hstatus htag => ?_, fun hwait => ?_⟩
  · exact step_of_driver_done hscript (t := { s with tag := .running })
      (by simp only [hadvance, driverAdvance, hstatus, htag])
  · exact step_of_driver_done hscript (t := s.post .endOfStream)
      (by simp only [hadvance, driverAdvance, hstatus, htag])
  · refine step_of_driver_notEnabled hscript (hadvance.trans ?_)
    rcases hwait with hstatus | ⟨hidle, hended⟩
    · exact driverAdvance_of_status hstatus
    · exact driverAdvance_of_tag hidle hended

/-- A pending `take` with STATUS full. -/
theorem step_of_take {s : State} {st : Status} {rest : List Turn} (hmode : s.params.ioMode = .stream)
    (hscript : s.script = .driver .take :: rest) (hstatus : s.status = some st) :
    step s = .next { s with
      status := none
      received := s.received ++ [st]
      tag := if st.isFinal then .ended else s.tag
      script := rest } :=
  step_of_driver_done hscript (t := { s with
      status := none
      received := s.received ++ [st]
      tag := if st.isFinal then .ended else s.tag })
    (by rw [driverStep_take hmode]; simp only [driverTake, hstatus])

/-- Settles O51: which statuses are final is read off. -/
theorem takeDeliversTheStatus : Obligations.TakeDeliversTheStatus := by
  intro s rest hmode hscript
  refine ⟨fun snap hstatus => step_of_take hmode hscript hstatus, fun r hstatus => step_of_take hmode hscript hstatus,
    fun st hstatus hst => ?_, fun hstatus => ?_⟩
  · have hfinal : st.isFinal = false := by rcases hst with ⟨v, rfl⟩ | rfl <;> rfl
    rw [step_of_take hmode hscript hstatus, hfinal]
    rfl
  · exact step_of_driver_notEnabled hscript (by rw [driverStep_take hmode]; simp only [driverTake, hstatus])

/-- Settles O52, by the event. -/
theorem driverEventsLeaveTheCoreAlone : Obligations.DriverEventsLeaveTheCoreAlone := by
  intro e s
  refine ⟨fun t h => ?_, fun hmode => driverStep_of_sync hmode e⟩
  cases (driverStep_done h).2 <;> exact ⟨rfl, rfl, rfl, rfl, rfl, rfl, rfl, rfl⟩

/-- Settles O54, by STATE. -/
theorem terminalAndWaitingStatesHaveNoStep : Obligations.TerminalAndWaitingStatesHaveNoStep := by
  intro s hscript
  rw [step_of_script_nil hscript, coreStep]
  refine ⟨fun htag => ?_, fun htag => ?_, fun htag => ?_, fun htag => ?_, fun htag hslot => ?_⟩ <;> rw [htag]
  simp only [wakeStep, hslot]

end Sys2Proof.Machine

/-! PROOFS. The invariant of the reachable states (10_state.md R33): every step keeps it. -/

namespace Sys2Proof.Machine

/-! ## Words that fit -/

theorem fits_zero (W : Nat) : Fits W 0 := by
  have hpos : 1 ≤ 2 ^ (W - 1) := Nat.one_le_two_pow
  unfold Fits minWord maxWord
  constructor <;> omega

theorem fits_one {W : Nat} (hW : 2 ≤ W) : Fits W 1 := by
  have hpos : 2 ^ 1 ≤ 2 ^ (W - 1) := Nat.pow_le_pow_right (by decide) (by omega)
  unfold Fits minWord maxWord
  constructor <;> omega

theorem fits_lessThanWord {W : Nat} (hW : 2 ≤ W) (a b : Int) : Fits W (lessThanWord a b) := by
  unfold lessThanWord
  split
  · exact fits_one hW
  · exact fits_zero W

theorem fits_equalsWord {W : Nat} (hW : 2 ≤ W) (a b : Int) : Fits W (equalsWord a b) := by
  unfold equalsWord
  split
  · exact fits_one hW
  · exact fits_zero W

theorem MemoryOk.fits_read {s : State} (h : MemoryOk s) (a : Nat) : Fits s.params.wordBits (s.mem.read a) := by
  rcases Memory.read_eq_zero_or_mem s.mem a with hzero | hmem
  · rw [hzero]
    exact fits_zero _
  · exact (h.2 _ hmem).2

theorem MemoryOk.fits_operand {s : State} (h : MemoryOk s) (i : Nat) (m : Mode) :
    Fits s.params.wordBits (operand s i m) := by
  unfold operand rawParam
  split <;> exact h.fits_read _

/-! ## Memory and MemLen -/

theorem lengthFits_iff {mw : Option Nat} {n : Nat} : lengthFits mw n = true ↔ ∀ cap, mw = some cap → n ≤ cap := by
  cases mw <;> simp [lengthFits]

theorem GrownBy.lengthFits {s : State} {n : Nat} (h : GrownBy s n)
    (hs : lengthFits s.params.memWords s.memLen = true) : Sys2Proof.lengthFits s.params.memWords n = true :=
  lengthFits_iff.mpr fun cap hcap => h.2 cap hcap (lengthFits_iff.mp hs cap hcap)

theorem MemoryOk.grow {s : State} (h : MemoryOk s) {n : Nat} (hn : s.memLen ≤ n) : MemoryOk { s with memLen := n } :=
  ⟨h.1, fun c hc => ⟨lt_of_lt_of_le (h.2 c hc).1 hn, (h.2 c hc).2⟩⟩

theorem MemoryOk.write {s : State} (h : MemoryOk s) {n a : Nat} {v : Int} (hn : s.memLen ≤ n) (ha : a < n)
    (hv : Fits s.params.wordBits v) : MemoryOk { s with mem := s.mem.write a v, memLen := n } := by
  refine ⟨Memory.write_wf h.1 a v, fun c hc => ?_⟩
  rcases Memory.mem_write hc with hold | ⟨rfl, -⟩
  · exact (h.grow hn).2 c hold
  · exact ⟨ha, hv⟩

/-! ## What FAULT, STATUS and the taken statuses are in each STATE -/

theorem statusOk_of_running {s : State} (h : s.tag = .running) :
    statusOk s = true ↔ s.fault = none ∧ s.status = none := by
  simp only [statusOk, h, decide_eq_true_eq]

theorem statusOk_of_awaitingInput {s : State} (h : s.tag = .awaitingInput) :
    statusOk s = true ↔ s.fault = none ∧ s.status = none := by
  simp only [statusOk, h, decide_eq_true_eq]

theorem statusOk_of_idle {s : State} (h : s.tag = .idle) :
    statusOk s = true ↔ s.fault = none ∧ ∀ st, s.status = some st → st.isOutput = true := by
  simp only [statusOk, h, Bool.and_eq_true, decide_eq_true_eq, List.all_eq_true, Option.mem_toList]

theorem statusOk_of_halted {s : State} (h : s.tag = .halted) :
    statusOk s = true ↔ s.fault = none ∧
      s.status = if s.params.ioMode = .stream then some (.terminated s.snapshot) else none := by
  simp only [statusOk, h, Bool.and_eq_true, decide_eq_true_eq]

theorem statusOk_of_faulted {s : State} (h : s.tag = .faulted) :
    statusOk s = true ↔ ∃ r, s.fault = some r ∧ r.ip = s.ip ∧
      s.status = if s.params.ioMode = .stream then some (.faulted r) else none := by
  cases hf : s.fault <;> simp [statusOk, h, hf]

theorem statusOk_of_ended {s : State} (h : s.tag = .ended) :
    statusOk s = true ↔ s.status = none ∨ s.status = some .endOfStream := by
  simp only [statusOk, h, decide_eq_true_eq]

theorem receivedOk_of_not_ended {s : State} (h : s.tag ≠ .ended) :
    receivedOk s = true ↔ s.received.all Status.isOutput = true := by
  simp only [receivedOk, h, if_false]

theorem receivedOk_of_ended {s : State} (h : s.tag = .ended) : receivedOk s = true ↔ endedStream s.received = true := by
  simp only [receivedOk, h, if_true]

/-- Outputs and then a final status are a finished stream (R107). -/
theorem endedStream_append_final {rs : List Status} {st : Status} (h : rs.all Status.isOutput = true)
    (hst : st.isFinal = true) : endedStream (rs ++ [st]) = true := by
  induction rs with
  | nil => cases st <;> simp_all [endedStream, Status.isFinal]
  | cons r rs ih =>
    simp only [List.all_cons, Bool.and_eq_true] at h
    cases r with
    | output v => exact ih h.2
    | _ => cases h.1

/-- End after a finished stream is a finished stream (R107). -/
theorem endedStream_append_end {rs : List Status} (h : endedStream rs = true) :
    endedStream (rs ++ [.endOfStream]) = true := by
  induction rs with
  | nil => cases h
  | cons r rs ih =>
    cases r with
    | output v => exact ih h
    | endOfStream => cases h
    | terminated _ | faulted _ =>
      simp only [endedStream, decide_eq_true_eq, List.cons_append, List.mem_append, List.mem_singleton] at h ⊢
      exact fun st hst => hst.elim (h st) id

/-! ## A discipline's unused half -/

theorem disciplineOk_of_sync {s : State} (h : s.params.ioMode = .sync) :
    disciplineOk s = true ↔ (s.inslot = none ∧ s.status = none ∧ s.received = []) ∧
      (s.tag = .running ∨ s.tag = .halted ∨ s.tag = .faulted) := by
  simp only [disciplineOk, h, Bool.and_eq_true, decide_eq_true_eq]

theorem disciplineOk_of_stream {s : State} (h : s.params.ioMode = .stream) :
    disciplineOk s = true ↔ s.inq = [] ∧ s.outq = [] := by
  simp only [disciplineOk, h, decide_eq_true_eq]

/-! ## The Core's moves -/

/-- From Running, memory, MemLen, IP and RB may become anything that fits. -/
theorem Inv.withData {s : State} (h : Inv s) (htag : s.tag = .running) {m : Memory} {n p : Nat} {b : Int}
    (hmem : MemoryOk { s with mem := m, memLen := n }) (hlen : lengthFits s.params.memWords n = true)
    (hb : Fits s.params.wordBits b) : Inv { s with mem := m, memLen := n, ip := p, rb := b } := by
  obtain ⟨hW, -, -, -, hchannels, hdiscipline, hstatus, hreceived⟩ := h
  rw [statusOk_of_running htag] at hstatus
  exact ⟨hW, hmem, hlen, hb, hchannels, hdiscipline, Iff.mpr (statusOk_of_running htag) hstatus, hreceived⟩

/-- From Running, MemLen may grow by accesses in range, and IP and RB change. -/
theorem Inv.withGrown {s : State} (h : Inv s) (htag : s.tag = .running) {n p : Nat} {b : Int} (hn : GrownBy s n)
    (hb : Fits s.params.wordBits b) : Inv { s with memLen := n, ip := p, rb := b } := by
  obtain ⟨-, hmem, hlen, -, -, -, -, -⟩ := id h
  exact h.withData htag (hmem.grow hn.le) (hn.lengthFits hlen) hb

/-- From Running, a Word may be stored below the new MemLen. -/
theorem Inv.withStore {s : State} (h : Inv s) (htag : s.tag = .running) {n p a : Nat} {v : Int} (hn : GrownBy s n)
    (ha : a < n) (hv : Fits s.params.wordBits v) : Inv { s with mem := s.mem.write a v, memLen := n, ip := p } := by
  obtain ⟨-, hmem, hlen, hrb, -, -, -, -⟩ := id h
  exact h.withData htag (hmem.write hn.le ha hv) (hn.lengthFits hlen) hrb

theorem Inv.stored {s : State} (h : Inv s) (htag : s.tag = .running) {a b dst : Mode} {r : Int}
    (hparams : threeFault s a b dst = none) (hr : Fits s.params.wordBits r) : Inv (stored s a b dst r) := by
  obtain ⟨hreads, hdst⟩ := Option.or_eq_none_iff.mp hparams
  obtain ⟨ha, hb⟩ := Option.or_eq_none_iff.mp hreads
  refine h.withStore htag (GrownBy.grownTo fun x hx => ?_) (lt_grownTo (List.mem_append_right _ ?_) _) hr
  · rcases List.mem_append.mp hx with hx | hx
    · exact (List.mem_append.mp hx).elim (touched_inRange (.inl ha) x) (touched_inRange (.inl hb) x)
    · exact touched_inRange (.inr hdst) x hx
  · rw [(writeParam_of_safe hdst).2.2.1]
    exact List.mem_cons_of_mem _ (List.mem_singleton_self _)

theorem Inv.inputStored {s : State} (h : Inv s) (htag : s.tag = .running) {dst : Mode} {v : Int}
    (hdst : writeFault s 1 dst = none) (hv : Fits s.params.wordBits v) : Inv (inputStored s dst v) := by
  refine h.withStore htag (GrownBy.grownTo (touched_inRange (.inr hdst))) (lt_grownTo ?_ _) hv
  rw [(writeParam_of_safe hdst).2.2.1]
  exact List.mem_cons_of_mem _ (List.mem_singleton_self _)

theorem Inv.jumped {s : State} (h : Inv s) (htag : s.tag = .running) {c t : Mode} {isTaken : Bool}
    (hparams : (readFault s 1 c).or (readFault s 2 t) = none) : Inv (jumped s c t isTaken) := by
  obtain ⟨-, -, -, hrb, -, -, -, -⟩ := id h
  obtain ⟨hc, ht⟩ := Option.or_eq_none_iff.mp hparams
  exact h.withGrown htag (GrownBy.grownTo fun x hx =>
    (List.mem_append.mp hx).elim (touched_inRange (.inl hc) x) (touched_inRange (.inl ht) x)) hrb

theorem Inv.afterOperand {s : State} (h : Inv s) (htag : s.tag = .running) {a : Mode} (ha : readFault s 1 a = none)
    {b : Int} (hb : Fits s.params.wordBits b) : Inv { afterOperand s a with rb := b } :=
  h.withGrown htag (GrownBy.grownTo (touched_inRange (.inl ha))) hb

/-- A sync input takes the oldest value, which is a Word. -/
theorem Inv.takeInq {s : State} (h : Inv s) (hmode : s.params.ioMode = .sync) {v : Int} {rest : List Int}
    (hq : s.inq = v :: rest) : Inv { s with inq := rest } ∧ Fits s.params.wordBits v := by
  obtain ⟨hW, hmem, hlen, hrb, ⟨hinq, hchannels⟩, hdiscipline, hstatus, hreceived⟩ := h
  rw [hq] at hinq
  refine ⟨⟨hW, hmem, hlen, hrb, ⟨fun w hw => hinq w (List.mem_cons_of_mem _ hw), hchannels⟩, ?_, hstatus, hreceived⟩,
    hinq v (List.mem_cons_self ..)⟩
  rw [disciplineOk_of_sync hmode] at hdiscipline
  exact Iff.mpr (disciplineOk_of_sync hmode) hdiscipline

/-- A stream input empties the slot, which held a Word. -/
theorem Inv.takeInslot {s : State} (h : Inv s) (hmode : s.params.ioMode = .stream) {v : Int}
    (hslot : s.inslot = some v) : Inv { s with inslot := none } ∧ Fits s.params.wordBits v := by
  obtain ⟨hW, hmem, hlen, hrb, ⟨hinq, houtq, hinslot⟩, hdiscipline, hstatus, hreceived⟩ := h
  refine ⟨⟨hW, hmem, hlen, hrb, ⟨hinq, houtq, nofun⟩, ?_, hstatus, hreceived⟩, hinslot v (by simp [hslot])⟩
  rw [disciplineOk_of_stream hmode] at hdiscipline
  exact Iff.mpr (disciplineOk_of_stream hmode) hdiscipline

/-- A stream input with the slot empty waits. -/
theorem Inv.waiting {s : State} (h : Inv s) (htag : s.tag = .running) (hmode : s.params.ioMode = .stream)
    (hraw : InRange s.params ((s.ip + 1 : Nat) : Int) = true) : Inv (waiting s) := by
  obtain ⟨hW, hmem, hlen, hrb, hchannels, hdiscipline, hstatus, hreceived⟩ := h
  have hn := GrownBy.of_inRange hraw
  rw [statusOk_of_running htag] at hstatus
  rw [receivedOk_of_not_ended (by simp [htag])] at hreceived
  rw [disciplineOk_of_stream hmode] at hdiscipline
  exact ⟨hW, hmem.grow hn.le, hn.lengthFits hlen, hrb, hchannels, Iff.mpr (disciplineOk_of_stream hmode) hdiscipline,
    Iff.mpr (statusOk_of_awaitingInput rfl) hstatus, Iff.mpr (receivedOk_of_not_ended nofun) hreceived⟩

theorem Inv.inputCompleted {s : State} (h : Inv s) (htag : s.tag = .running) {dst : Mode}
    (hdst : writeFault s 1 dst = none) : Inv (inputCompleted s dst) := by
  rcases inputCompleted_cases s dst with ⟨-, -, he⟩ | ⟨hmode, v, rest, hq, he⟩ | ⟨hmode, -, he⟩ |
    ⟨hmode, v, hslot, he⟩ <;> rw [he]
  · exact h
  · obtain ⟨hs, hv⟩ := h.takeInq hmode hq
    exact hs.inputStored htag hdst hv
  · refine h.waiting htag hmode (touched_inRange (.inr hdst) _ ?_)
    rw [(writeParam_of_safe hdst).2.2.1]
    exact List.mem_cons_self ..
  · obtain ⟨hs, hv⟩ := h.takeInslot hmode hslot
    exact hs.inputStored htag hdst hv

/-- A Word is appended to OUTQ, or posted in Idle. -/
theorem Inv.chanPut {s : State} (h : Inv s) (htag : s.tag = .running) {v : Int} (hv : Fits s.params.wordBits v) :
    Inv (chanPut v s) := by
  obtain ⟨hW, hmem, hlen, hrb, ⟨hinq, houtq, hinslot⟩, hdiscipline, hstatus, hreceived⟩ := h
  cases hmode : s.params.ioMode with
  | sync =>
    rw [chanPut_sync hmode]
    rw [disciplineOk_of_sync hmode] at hdiscipline
    refine ⟨hW, hmem, hlen, hrb, ⟨hinq, fun w hw => ?_, hinslot⟩, Iff.mpr (disciplineOk_of_sync hmode) hdiscipline,
      hstatus, hreceived⟩
    rcases List.mem_append.mp hw with hw | hw
    · exact houtq w hw
    · exact List.mem_singleton.mp hw ▸ hv
  | stream =>
    rw [chanPut_stream hmode]
    rw [disciplineOk_of_stream hmode] at hdiscipline
    rw [statusOk_of_running htag] at hstatus
    rw [receivedOk_of_not_ended (by simp [htag])] at hreceived
    refine ⟨hW, hmem, hlen, hrb, ⟨hinq, houtq, hinslot⟩, Iff.mpr (disciplineOk_of_stream hmode) hdiscipline,
      Iff.mpr (statusOk_of_idle rfl) ⟨hstatus.1, ?_⟩, Iff.mpr (receivedOk_of_not_ended nofun) hreceived⟩
    rintro st hst
    cases hst
    rfl

theorem Inv.haltCompleted {s : State} (h : Inv s) (htag : s.tag = .running) : Inv (completed .halt s) := by
  obtain ⟨hW, hmem, hlen, hrb, hchannels, hdiscipline, hstatus, hreceived⟩ := h
  rw [statusOk_of_running htag] at hstatus
  rw [receivedOk_of_not_ended (by simp [htag])] at hreceived
  rcases completed_halt_cases s with ⟨hmode, he⟩ | ⟨hmode, he⟩ <;> rw [he]
  · rw [disciplineOk_of_sync hmode] at hdiscipline
    exact ⟨hW, hmem, hlen, hrb, hchannels, Iff.mpr (disciplineOk_of_sync hmode) ⟨hdiscipline.1, .inr (.inl rfl)⟩,
      Iff.mpr (statusOk_of_halted rfl) ⟨hstatus.1, hstatus.2.trans (if_neg (by simp [hmode])).symm⟩,
      Iff.mpr (receivedOk_of_not_ended nofun) hreceived⟩
  · rw [disciplineOk_of_stream hmode] at hdiscipline
    exact ⟨hW, hmem, hlen, hrb, hchannels, Iff.mpr (disciplineOk_of_stream hmode) hdiscipline,
      Iff.mpr (statusOk_of_halted rfl) ⟨hstatus.1, (if_pos hmode).symm⟩,
      Iff.mpr (receivedOk_of_not_ended nofun) hreceived⟩

/-- Fault entry from Running (R133). -/
theorem Inv.faultEntry {s : State} (h : Inv s) (htag : s.tag = .running) {k : FaultKind} {d : Int} {n : Nat}
    (hn : GrownBy s n) : Inv (faultEntry s k d n) := by
  obtain ⟨hW, hmem, hlen, hrb, hchannels, hdiscipline, hstatus, hreceived⟩ := h
  rw [statusOk_of_running htag] at hstatus
  rw [receivedOk_of_not_ended (by simp [htag])] at hreceived
  refine ⟨hW, hmem.grow hn.le, hn.lengthFits hlen, hrb, hchannels, ?_,
    Iff.mpr (statusOk_of_faulted rfl) ⟨_, rfl, rfl, ?_⟩, Iff.mpr (receivedOk_of_not_ended nofun) hreceived⟩
  · cases hmode : s.params.ioMode with
    | sync =>
      rw [disciplineOk_of_sync hmode] at hdiscipline
      obtain ⟨⟨hslot, -, hrec⟩, -⟩ := hdiscipline
      exact Iff.mpr (disciplineOk_of_sync hmode)
        ⟨⟨hslot, (if_neg (by simp [hmode])).trans hstatus.2, hrec⟩, .inr (.inr rfl)⟩
    | stream =>
      rw [disciplineOk_of_stream hmode] at hdiscipline
      exact Iff.mpr (disciplineOk_of_stream hmode) hdiscipline
  · show (if s.params.ioMode = .stream then _ else s.status) = _
    rw [hstatus.2]
    rfl

/-- A complete instruction keeps the invariant. -/
theorem Inv.completed {s : State} (h : Inv s) (htag : s.tag = .running) {i : Instr} (hsafe : firstFault i s = none) :
    Inv (completed i s) := by
  obtain ⟨hW, hmem, -, hrb, -, -, -, -⟩ := id h
  have hW1 : 1 ≤ s.params.wordBits := le_trans (by decide) hW
  cases i with
  | add a b dst | mul a b dst => exact h.stored htag (Option.or_eq_none_iff.mp hsafe).1 (reduced_fits hW1 _)
  | lessThan a b dst => exact h.stored htag hsafe (fits_lessThanWord hW _ _)
  | equals a b dst => exact h.stored htag hsafe (fits_equalsWord hW _ _)
  | input dst => exact h.inputCompleted htag (Option.or_eq_none_iff.mp hsafe).1
  | output a => exact (h.afterOperand htag hsafe hrb).chanPut htag (hmem.fits_operand 1 a)
  | jumpIfTrue c t | jumpIfFalse c t => exact h.jumped htag (Option.or_eq_none_iff.mp hsafe).1
  | adjustBase a => exact h.afterOperand htag (Option.or_eq_none_iff.mp hsafe).1 (reduced_fits hW1 _)
  | halt => exact h.haltCompleted htag

/-- The wake (R89), which stream mode alone has: in sync mode STATE is never AwaitingInput. -/
theorem Inv.wake {s : State} (h : Inv s) (htag : s.tag = .awaitingInput) : Inv { s with tag := .running } := by
  obtain ⟨hW, hmem, hlen, hrb, hchannels, hdiscipline, hstatus, hreceived⟩ := h
  rw [statusOk_of_awaitingInput htag] at hstatus
  rw [receivedOk_of_not_ended (by simp [htag])] at hreceived
  refine ⟨hW, hmem, hlen, hrb, hchannels, ?_, Iff.mpr (statusOk_of_running rfl) hstatus,
    Iff.mpr (receivedOk_of_not_ended nofun) hreceived⟩
  cases hmode : s.params.ioMode with
  | sync =>
    rw [disciplineOk_of_sync hmode, htag] at hdiscipline
    simp at hdiscipline
  | stream =>
    rw [disciplineOk_of_stream hmode] at hdiscipline
    exact Iff.mpr (disciplineOk_of_stream hmode) hdiscipline

theorem Inv.coreMove {s t : State} (h : Inv s) (hmove : CoreMove s t) : Inv t := by
  cases hmove with
  | instr htag hd hin hsafe =>
    obtain ⟨-, -, -, hrb, -, -, -, -⟩ := id h
    have hgrown : Inv (s.grow s.ip) := h.withGrown htag (p := s.ip) (GrownBy.of_inRange hin) hrb
    exact hgrown.completed htag ((firstFault_memLen ..).trans hsafe)
  | fault htag hn => exact h.faultEntry htag hn
  | wake htag _ => exact h.wake htag

/-! ## The driver's moves -/

/-- A status that is there is an output in Idle, a final one in Halted and Faulted, and End in Ended; in no other STATE
is there one (R102, R103). -/
theorem Inv.status_cases {s : State} (h : Inv s) {st : Status} (hst : s.status = some st) :
    (s.tag = .idle ∧ st.isOutput = true ∧ st.isFinal = false) ∨
    ((s.tag = .halted ∨ s.tag = .faulted) ∧ st.isFinal = true) ∨ (s.tag = .ended ∧ st = .endOfStream) := by
  obtain ⟨-, -, -, -, -, -, hstatus, -⟩ := h
  cases htag : s.tag with
  | running => rw [statusOk_of_running htag, hst] at hstatus; cases hstatus.2
  | awaitingInput => rw [statusOk_of_awaitingInput htag, hst] at hstatus; cases hstatus.2
  | idle =>
    rw [statusOk_of_idle htag] at hstatus
    have hout := hstatus.2 st hst
    refine .inl ⟨rfl, hout, ?_⟩
    cases st with
    | output => rfl
    | _ => cases hout
  | halted =>
    rw [statusOk_of_halted htag, hst] at hstatus
    split at hstatus
    · cases hstatus.2; exact .inr (.inl ⟨.inl rfl, rfl⟩)
    · cases hstatus.2
  | faulted =>
    rw [statusOk_of_faulted htag, hst] at hstatus
    obtain ⟨r, -, -, hr⟩ := hstatus
    split at hr
    · cases hr; exact .inr (.inl ⟨.inr rfl, rfl⟩)
    · cases hr
  | ended =>
    rw [statusOk_of_ended htag, hst] at hstatus
    exact .inr (.inr ⟨rfl, Option.some.inj (hstatus.resolve_left (by simp))⟩)

/-- The statuses taken stay the beginning of a well-ended stream (R107). -/
theorem Inv.take {s : State} (h : Inv s) (hmode : s.params.ioMode = .stream) {st : Status} (hst : s.status = some st) :
    Inv { s with
      status := none
      received := s.received ++ [st]
      tag := if st.isFinal then .ended else s.tag } := by
  have hcases := h.status_cases hst
  obtain ⟨hW, hmem, hlen, hrb, hchannels, hdiscipline, hstatus, hreceived⟩ := h
  rw [disciplineOk_of_stream hmode] at hdiscipline
  refine ⟨hW, hmem, hlen, hrb, hchannels, Iff.mpr (disciplineOk_of_stream hmode) hdiscipline, ?_⟩
  rcases hcases with ⟨htag, hout, hfinal⟩ | ⟨htag, hfinal⟩ | ⟨htag, rfl⟩
  · rw [statusOk_of_idle htag] at hstatus
    rw [receivedOk_of_not_ended (by simp [htag])] at hreceived
    rw [if_neg (by simp [hfinal])]
    exact ⟨Iff.mpr (statusOk_of_idle htag) ⟨hstatus.1, nofun⟩,
      Iff.mpr (receivedOk_of_not_ended (by simp [htag])) (by simp [List.all_append, hreceived, hout])⟩
  · have hne : s.tag ≠ .ended := by rcases htag with htag | htag <;> simp [htag]
    rw [receivedOk_of_not_ended hne] at hreceived
    rw [if_pos hfinal]
    exact ⟨Iff.mpr (statusOk_of_ended rfl) (.inl rfl),
      Iff.mpr (receivedOk_of_ended rfl) (endedStream_append_final hreceived hfinal)⟩
  · rw [receivedOk_of_ended htag] at hreceived
    exact ⟨Iff.mpr (statusOk_of_ended htag) (.inl rfl),
      Iff.mpr (receivedOk_of_ended htag) (endedStream_append_end hreceived)⟩

theorem Inv.driverMove {s t : State} {e : DriverEvent} (h : Inv s) (hmode : s.params.ioMode = .stream)
    (hmove : DriverMove s e t) : Inv t := by
  have hinv := h
  obtain ⟨hW, hmem, hlen, hrb, ⟨hinq, houtq, hinslot⟩, hdiscipline, hstatus, hreceived⟩ := h
  rw [disciplineOk_of_stream hmode] at hdiscipline
  cases hmove with
  | send hfits hslot =>
    refine ⟨hW, hmem, hlen, hrb, ⟨hinq, houtq, fun w hw => ?_⟩, Iff.mpr (disciplineOk_of_stream hmode) hdiscipline,
      hstatus, hreceived⟩
    rw [List.mem_singleton.mp hw]
    exact hfits
  | start hst htag =>
    rw [statusOk_of_idle htag] at hstatus
    rw [receivedOk_of_not_ended (by simp [htag])] at hreceived
    exact ⟨hW, hmem, hlen, hrb, ⟨hinq, houtq, hinslot⟩, Iff.mpr (disciplineOk_of_stream hmode) hdiscipline,
      Iff.mpr (statusOk_of_running rfl) ⟨hstatus.1, hst⟩, Iff.mpr (receivedOk_of_not_ended nofun) hreceived⟩
  | answerEnd hst htag =>
    exact ⟨hW, hmem, hlen, hrb, ⟨hinq, houtq, hinslot⟩, Iff.mpr (disciplineOk_of_stream hmode) hdiscipline,
      Iff.mpr (statusOk_of_ended htag) (.inr rfl), hreceived⟩
  | take hst => exact hinv.take hmode hst

/-! ## Every step -/

/-- Settles O45: each move of either agent keeps the invariant, and none of it speaks of the script. -/
theorem stepKeepsTheInvariant : Obligations.StepKeepsTheInvariant := by
  intro s t h hstep
  rcases step_next hstep with ⟨rest, hmove⟩ | ⟨rest, rfl⟩ | ⟨e, rest, u, -, hmode, hmove, rfl⟩
  · exact Inv.coreMove (s := { s with script := rest }) h hmove
  · exact h
  · have hu : Inv u := h.driverMove hmode hmove
    exact hu

/-- Settles O46: each part of the invariant evaluates. -/
theorem resetMeetsTheInvariant : Obligations.ResetMeetsTheInvariant := by
  unfold Obligations.ResetMeetsTheInvariant
  decide

end Sys2Proof.Machine

/-! PROOFS. The statements of 20_memory.md on writes and the canonical form. -/

namespace Sys2Proof.Machine

/-! ## Writes (R45) -/

theorem memWrite_of_fault {a v : Int} {s : State} {k : FaultKind} {d : Int}
    (h : accessFaultAt s.params a = some (k, d)) : memWrite a v s = .raised k d s := by
  rw [accessFaultAt_eq, Option.map_eq_some_iff] at h
  obtain ⟨k', hk, he⟩ := h
  cases he
  simp only [memWrite, hk]

/-- Settles O12: the checks are those of an access, and the memory written is `Memory.write`'s. -/
theorem memWriteStoresOneWord : Obligations.MemWriteStoresOneWord := by
  intro a v s hwf
  refine ⟨fun hneg => ?_, fun cap h0 hp hcap => ?_, fun h0 hbelow => ?_⟩
  · exact memWrite_of_fault (accessFaultAt_of_neg hneg)
  · exact memWrite_of_fault (accessFaultAt_of_capacity_le h0 hp hcap)
  · exact ⟨_, memWrite_of_inRange (inRange_iff.mpr ⟨h0, hbelow⟩), Memory.read_write_same hwf _ _,
      fun b hb => Memory.read_write_of_ne _ _ hb, Memory.write_wf hwf _ _⟩

/-! ## The canonical form (log 2) -/

theorem Memory.wf_tail {c : Nat × Int} {m : Memory} (h : Memory.wf (c :: m)) : Memory.wf m :=
  ⟨(List.pairwise_cons.mp h.1).2, fun d hd => h.2 d (List.mem_cons_of_mem _ hd)⟩

/-- After its first address a canonical memory lists only greater ones, so the rest reads 0 there. -/
theorem Memory.read_tail_eq_zero {b : Nat} {w : Int} {m : Memory} (h : Memory.wf ((b, w) :: m)) {a : Nat} (ha : a ≤ b) :
    Memory.read m a = 0 :=
  Memory.read_eq_zero_of_lt fun c hc => lt_of_le_of_lt ha ((List.pairwise_cons.mp h.1).1 c hc)

theorem Memory.read_head (b : Nat) (w : Int) (m : Memory) : Memory.read ((b, w) :: m) b = w := if_pos rfl

theorem Memory.word_ne_zero {b : Nat} {w : Int} {m : Memory} (h : Memory.wf ((b, w) :: m)) : w ≠ 0 :=
  h.2 (b, w) (List.mem_cons_self ..)

/-- The first listed address is the first that does not read 0. -/
theorem Memory.head_le {b b' : Nat} {w w' : Int} {m m' : Memory} (h : Memory.wf ((b, w) :: m))
    (h' : Memory.wf ((b', w') :: m')) (hread : Memory.read ((b, w) :: m) b = Memory.read ((b', w') :: m') b) :
    b' ≤ b := by
  by_contra hlt
  have hlt := Nat.lt_of_not_le hlt
  rw [Memory.read_head, Memory.read_cons, if_neg (Nat.ne_of_lt hlt), Memory.read_tail_eq_zero h' hlt.le] at hread
  exact Memory.word_ne_zero h hread

/-- Settles O13: the first cells are equal, since each is at the first address that does not read 0; and so on. -/
theorem canonicalMemoryIsDeterminedByItsReads : Obligations.CanonicalMemoryIsDeterminedByItsReads := by
  intro m
  induction m with
  | nil =>
    intro m' _ h' hread
    cases m' with
    | nil => rfl
    | cons c m' => exact absurd ((hread c.1).trans (Memory.read_head ..)).symm (Memory.word_ne_zero h')
  | cons c m ih =>
    intro m' h h' hread
    obtain ⟨b, w⟩ := c
    cases m' with
    | nil => exact absurd ((Memory.read_head b w m).symm.trans (hread b)) (Memory.word_ne_zero h)
    | cons c' m' =>
      obtain ⟨b', w'⟩ := c'
      obtain rfl : b = b' := le_antisymm (Memory.head_le h' h (hread b').symm) (Memory.head_le h h' (hread b))
      have hword := hread b
      rw [Memory.read_head, Memory.read_head] at hword
      rw [hword, ih m' (Memory.wf_tail h) (Memory.wf_tail h')]
      intro a
      by_cases ha : a = b
      · rw [ha, Memory.read_tail_eq_zero h (le_refl b), Memory.read_tail_eq_zero h' (le_refl b)]
      · simpa only [Memory.read_cons, if_neg ha] using hread a

end Sys2Proof.Machine

/-! PROOFS. The statements of 30_encoding.md section 6: labels. -/

namespace Sys2Proof

/-- The address of a label not defined earlier, in lines loaded at `a`. -/
theorem labelAddr_append_label (name : String) (a : Nat) (before after : List AsmLine)
    (h : AsmLine.label name ∉ before) :
    labelAddr name a (before ++ .label name :: after) = some (a + (before.map AsmLine.size).sum) := by
  induction before generalizing a with
  | nil => simp [labelAddr]
  | cons line before ih =>
    obtain ⟨hline, hbefore⟩ := not_or.mp (mt List.mem_cons.mpr h)
    cases line with
    | label n =>
      have hn : n ≠ name := fun hn => hline (hn ▸ rfl)
      simp [labelAddr, AsmLine.size, if_neg hn, ih a hbefore]
    | instr i raws => simp [labelAddr, AsmLine.size, ih _ hbefore, Nat.add_assoc]
    | word v => simp [labelAddr, AsmLine.size, ih _ hbefore, Nat.add_assoc]

theorem length_of_resolveRaws {listing : List AsmLine} {raws : List RawValue} {vs : List Int}
    (h : resolveRaws listing raws = some vs) : vs.length = raws.length := by
  induction raws generalizing vs with
  | nil => cases h; rfl
  | cons r rs ih =>
    simp only [resolveRaws, Option.bind_eq_some_iff, Option.map_eq_some_iff] at h
    obtain ⟨v, -, ws, hws, rfl⟩ := h
    simp [ih hws]

/-- Lines that resolve make as many words as their sizes say. -/
theorem length_assemble_of_resolveLines {listing lines : List AsmLine} {items : List AsmItem}
    (h : resolveLines listing lines = some items) : (assemble items).length = (lines.map AsmLine.size).sum := by
  induction lines generalizing items with
  | nil => cases h; rfl
  | cons line lines ih =>
    cases line with
    | label n => simpa [AsmLine.size] using ih h
    | instr i raws =>
      simp only [resolveLines, Option.bind_eq_some_iff, Option.map_eq_some_iff] at h
      obtain ⟨vs, hvs, rest, hrest, rfl⟩ := h
      simp only [assemble, AsmItem.words, List.length_append, List.length_cons, List.map_cons, AsmLine.size,
        List.sum_cons, ih hrest, length_of_resolveRaws hvs, Nat.add_comm 1]
    | word v =>
      simp only [resolveLines, Option.bind_eq_some_iff, Option.map_eq_some_iff] at h
      obtain ⟨w, -, rest, hrest, rfl⟩ := h
      simp [assemble, AsmItem.words, AsmLine.size, ih hrest, Nat.add_comm]

/-- Settles O6: both parts by induction on the lines. -/
theorem labelsDenoteTheNextWord : Obligations.LabelsDenoteTheNextWord := by
  refine ⟨fun name before after h => ?_, fun listing image h => ?_⟩
  · rw [labelAddr_append_label name 0 before after h, Nat.zero_add]
  · obtain ⟨items, hitems, rfl⟩ := Option.map_eq_some_iff.mp h
    exact length_assemble_of_resolveLines hitems

end Sys2Proof

/-! PROOFS. The statements of 70_reset_and_hazards.md section 1: reset and load. -/

namespace Sys2Proof.Machine

/-! ## Constructions -/

/-- The sync machine right after its load (R153). -/
def freshSync (p : Params) (image inputs : List Int) : State :=
  { freshState p image with inq := inputs, tag := .running }

/-- The stream machine right after its load (R154). -/
def freshStream (p : Params) (image : List Int) (script : List Turn) : State :=
  { freshState p image with tag := .idle, script := script }

theorem constructSync_eq_some_iff {p : Params} {image inputs : List Int} {s : State} :
    constructSync p image inputs = some s ↔
      (p.ioMode = .sync ∧ p.WellFormed ∧ ImageOk p image ∧ WordsFit p.wordBits inputs) ∧
        s = freshSync p image inputs := by
  unfold constructSync
  split
  · next h => exact (Option.some_inj.trans eq_comm).trans (and_iff_right h).symm
  · next h => exact iff_of_false nofun fun hs => h hs.1

theorem constructStream_eq_some_iff {p : Params} {image : List Int} {script : List Turn} {s : State} :
    constructStream p image script = some s ↔
      (p.ioMode = .stream ∧ p.WellFormed ∧ ImageOk p image) ∧
        s = freshStream p image script := by
  unfold constructStream
  split
  · next h => exact (Option.some_inj.trans eq_comm).trans (and_iff_right h).symm
  · next h => exact iff_of_false nofun fun hs => h hs.1

theorem imageOk_iff {p : Params} {image : List Int} :
    ImageOk p image ↔ WordsFit p.wordBits image ∧ ∀ cap, p.memWords = some cap → image.length ≤ cap :=
  and_congr_right' lengthFits_iff

theorem read_freshState (p : Params) (image : List Int) (a : Nat) :
    (freshState p image).mem.read a = image.getD a 0 := by
  have h := Memory.read_ofWords 0 a image
  rwa [Nat.zero_add] at h

/-- Settles O7: each field of the reset state is read off. -/
theorem resetIsAFreshInstance : Obligations.ResetIsAFreshInstance :=
  ⟨rfl, rfl, fun _ => rfl, rfl, rfl, rfl, rfl, rfl, rfl, rfl, rfl⟩

/-- Settles O8: the load is admitted, and what it sets is read off. -/
theorem syncConstructionGivesAFreshInstance : Obligations.SyncConstructionGivesAFreshInstance := by
  intro p image inputs hmode hW himage hlen hinputs
  exact ⟨_, constructSync_eq_some_iff.mpr ⟨⟨hmode, hW, imageOk_iff.mpr ⟨himage, hlen⟩, hinputs⟩, rfl⟩, rfl, rfl, rfl,
    read_freshState p image, rfl, rfl, rfl, rfl, rfl, rfl, rfl⟩

/-- Settles O9: the load is admitted, and what it sets is read off. -/
theorem streamConstructionGivesAFreshInstance : Obligations.StreamConstructionGivesAFreshInstance := by
  intro p image script hmode hW himage hlen
  exact ⟨_, constructStream_eq_some_iff.mpr ⟨⟨hmode, hW, imageOk_iff.mpr ⟨himage, hlen⟩⟩, rfl⟩, rfl, rfl, rfl,
    read_freshState p image, rfl, rfl, rfl, rfl, rfl, rfl, rfl, rfl⟩

/-- Settles O10: a load that is not refused has an image and inputs that fit. -/
theorem loadRefusesWhatDoesNotFit : Obligations.LoadRefusesWhatDoesNotFit := by
  intro p image inputs script
  refine ⟨fun hbad => ?_, fun ⟨v, hv, hout⟩ => ?_⟩
  · have himage : ¬ ImageOk p image := by
      rw [imageOk_iff]
      rintro ⟨hfit, hlen⟩
      rcases hbad with ⟨v, hv, hout⟩ | ⟨cap, hcap, hlong⟩
      · exact hout (hfit v hv)
      · exact absurd (hlen cap hcap) (Nat.not_le.mpr hlong)
    constructor <;> refine Option.eq_none_iff_forall_ne_some.mpr fun s hs => himage ?_
    · obtain ⟨⟨-, -, hok, -⟩, -⟩ := constructSync_eq_some_iff.mp hs
      exact hok
    · obtain ⟨⟨-, -, hok⟩, -⟩ := constructStream_eq_some_iff.mp hs
      exact hok
  · refine Option.eq_none_iff_forall_ne_some.mpr fun s hs => hout ?_
    obtain ⟨⟨-, -, -, hinputs⟩, -⟩ := constructSync_eq_some_iff.mp hs
    exact hinputs v hv

/-- A fresh memory is canonical, within the image, and of its words. -/
theorem memoryOk_freshState {p : Params} {image : List Int} (h : WordsFit p.wordBits image) :
    MemoryOk (freshState p image) := by
  refine ⟨Memory.ofWords_wf 0 image, fun c hc => ?_⟩
  obtain ⟨-, hlt, hmem, -⟩ := Memory.mem_ofWords hc
  rw [Nat.zero_add] at hlt
  exact ⟨hlt, h _ hmem⟩

/-- Settles O47, by the discipline. -/
theorem constructionsMeetTheInvariant : Obligations.ConstructionsMeetTheInvariant := by
  rintro p image inputs script s (hs | hs)
  · obtain ⟨⟨hmode, hW, ⟨hfit, hlen⟩, hinputs⟩, rfl⟩ := constructSync_eq_some_iff.mp hs
    exact ⟨hW, memoryOk_freshState hfit, hlen, fits_zero _, ⟨hinputs, nofun, nofun⟩,
      Iff.mpr (disciplineOk_of_sync hmode) ⟨⟨rfl, rfl, rfl⟩, .inl rfl⟩, rfl, rfl⟩
  · obtain ⟨⟨hmode, hW, ⟨hfit, hlen⟩⟩, rfl⟩ := constructStream_eq_some_iff.mp hs
    exact ⟨hW, memoryOk_freshState hfit, hlen, fits_zero _, ⟨nofun, nofun, nofun⟩,
      Iff.mpr (disciplineOk_of_stream hmode) ⟨rfl, rfl⟩, rfl, rfl⟩

/-! ## The first step of a loaded listing -/

/-- A fresh machine whose image is not empty can fetch its first word, and MemLen covers it. -/
theorem fetch_freshState {p : Params} {image : List Int} (hlen : lengthFits p.memWords image.length = true)
    (hne : 1 ≤ image.length) : InRange p ((0 : Nat) : Int) = true ∧ max image.length (0 + 1) = image.length := by
  refine ⟨inRange_iff.mpr ⟨le_refl _, fun cap hcap => ?_⟩, max_eq_left hne⟩
  have hcap' := lengthFits_iff.mp hlen cap hcap
  omega

/-- The first step of a loaded sync machine runs the instruction its image begins with. -/
theorem step_of_constructSync {p : Params} {image inputs : List Int} {s : State} {i : Instr}
    (hs : constructSync p image inputs = some s) (hi : image.head?.map decode = some (.ok i)) : step s = exec i s := by
  obtain ⟨⟨-, -, ⟨-, hlen⟩, -⟩, rfl⟩ := constructSync_eq_some_iff.mp hs
  obtain ⟨w, hhead, hw⟩ := Option.map_eq_some_iff.mp hi
  obtain ⟨ws, rfl⟩ := List.head?_eq_some_iff.mp hhead
  obtain ⟨hin, hmax⟩ := fetch_freshState hlen (by simp)
  rw [step_of_running rfl rfl, instructionStep_of_decode (s := freshSync p (w :: ws) inputs) hin
    ((congrArg decode (read_freshState p (w :: ws) 0)).trans hw)]
  exact congrArg (fun n => exec i { freshSync p (w :: ws) inputs with memLen := n }) hmax

/-- Settles O5: the image begins with the encoded word and the raw words of the first item. -/
theorem assembledListingRunsItsFirstItem : Obligations.AssembledListingRunsItsFirstItem := by
  intro p i raws inputs rest s hwf hs
  refine ⟨step_of_constructSync hs (congrArg some (decode_encode i)), fun k hk => ?_⟩
  obtain ⟨-, hraws, -⟩ := hwf
  obtain ⟨-, rfl⟩ := constructSync_eq_some_iff.mp hs
  have hread := read_freshState p (assemble (.instr i raws :: rest)) (0 + (k + 1))
  refine hread.trans ?_
  rw [Nat.zero_add]
  exact List.getD_append raws (assemble rest) 0 k (hraws ▸ hk)

end Sys2Proof.Machine

/-! PROOFS. The statements about STATE, the order of the channels, the wait for an input and the time of a send. -/

namespace Sys2Proof.Machine

/-! ## STATE (R26) and the order of the channels (R88) -/

/-- A Core move changes STATE by a row of the table. -/
theorem CoreMove.tag_cases {s t : State} (h : CoreMove s t) :
    t.tag = s.tag ∨
    (s.tag = .running ∧ t.tag = .awaitingInput ∧ s.params.ioMode = .stream ∧ s.inslot = none) ∨
    (s.tag = .awaitingInput ∧ t.tag = .running ∧ s.inslot ≠ none) ∨
    (s.tag = .running ∧ t.tag = .idle ∧ s.params.ioMode = .stream ∧ ∃ v, t.status = some (.output v)) ∨
    (s.tag = .running ∧ t.tag = .halted ∧ decode (s.mem.read s.ip) = .ok .halt) ∨
    (s.tag = .running ∧ t.tag = .faulted ∧ t.fault ≠ none) := by
  cases h with
  | @instr i htag hd =>
    rcases completed_tag_cases i (s.grow s.ip) with h | ⟨h, hmode, hslot⟩ | ⟨h, hmode, hv⟩ | ⟨h, rfl⟩
    · exact .inl h
    · exact .inr (.inl ⟨htag, h, hmode, hslot⟩)
    · exact .inr (.inr (.inr (.inl ⟨htag, h, hmode, hv⟩)))
    · exact .inr (.inr (.inr (.inr (.inl ⟨htag, h, hd⟩))))
  | fault htag => exact .inr (.inr (.inr (.inr (.inr ⟨htag, rfl, Option.some_ne_none _⟩))))
  | wake htag hslot => exact .inr (.inr (.inl ⟨htag, rfl, by simp [hslot]⟩))

/-- A driver event changes STATE by starting an Idle Core, or by taking a final status. -/
theorem DriverMove.tag_cases {s t : State} {e : DriverEvent} (hinv : Inv s) (h : DriverMove s e t) :
    t.tag = s.tag ∨ (s.tag = .idle ∧ t.tag = .running ∧ e = .advance) ∨
      ((s.tag = .halted ∨ s.tag = .faulted) ∧ t.tag = .ended ∧ e = .take) := by
  cases h with
  | send => exact .inl rfl
  | start _ htag => exact .inr (.inl ⟨htag, rfl, rfl⟩)
  | answerEnd => exact .inl rfl
  | take hst =>
    rcases hinv.status_cases hst with ⟨-, -, hfinal⟩ | ⟨htag, hfinal⟩ | ⟨-, rfl⟩
    · exact .inl (if_neg (by simp [hfinal]))
    · exact .inr (.inr ⟨htag, if_pos hfinal, rfl⟩)
    · exact .inl rfl

/-- Settles O44: the rows of the Core's moves and of the driver's. -/
theorem stateChangesOnlyByTheTable : Obligations.StateChangesOnlyByTheTable := by
  intro s t hinv hstep
  rcases step_next hstep with ⟨rest, hmove⟩ | ⟨rest, rfl⟩ | ⟨e, rest, u, hscript, hmode, hmove, rfl⟩
  · rcases hmove.tag_cases with h | h | h | h | h | h
    · exact .inl h
    · exact .inr (.inl h)
    · exact .inr (.inr (.inl h))
    · exact .inr (.inr (.inr (.inl h)))
    · exact .inr (.inr (.inr (.inr (.inr (.inl h)))))
    · exact .inr (.inr (.inr (.inr (.inr (.inr (.inl h))))))
  · exact .inl rfl
  · rcases hmove.tag_cases hinv with h | ⟨h, h', rfl⟩ | ⟨h, h', rfl⟩
    · exact .inl h
    · exact .inr (.inr (.inr (.inr (.inl ⟨h, h', rest, hscript⟩))))
    · exact .inr (.inr (.inr (.inr (.inr (.inr (.inr ⟨h, h', hmode, rest, hscript⟩))))))

/-- A complete instruction takes at most the oldest input and appends at most one output. -/
theorem completed_channels (i : Instr) (s : State) :
    ((completed i s).inq = s.inq ∨ ∃ v, s.inq = v :: (completed i s).inq) ∧
    ((completed i s).inslot = s.inslot ∨ (completed i s).inslot = none) ∧
    ((completed i s).outq = s.outq ∨ ∃ v, (completed i s).outq = s.outq ++ [v]) := by
  cases i with
  | input dst =>
    rw [completed]
    rcases inputCompleted_cases s dst with ⟨-, -, he⟩ | ⟨-, v, rest, hq, he⟩ | ⟨-, -, he⟩ | ⟨-, v, -, he⟩ <;> rw [he]
    · exact ⟨.inl rfl, .inl rfl, .inl rfl⟩
    · exact ⟨.inr ⟨v, hq⟩, .inl rfl, .inl rfl⟩
    · exact ⟨.inl rfl, .inl rfl, .inl rfl⟩
    · exact ⟨.inl rfl, .inr rfl, .inl rfl⟩
  | output a =>
    rcases completed_output_cases s a with ⟨-, he⟩ | ⟨-, he⟩ <;> rw [he]
    · exact ⟨.inl rfl, .inl rfl, .inr ⟨_, rfl⟩⟩
    · exact ⟨.inl rfl, .inl rfl, .inl rfl⟩
  | halt => rcases completed_halt_cases s with ⟨-, he⟩ | ⟨-, he⟩ <;> rw [he] <;> exact ⟨.inl rfl, .inl rfl, .inl rfl⟩
  | _ => exact ⟨.inl rfl, .inl rfl, .inl rfl⟩

/-- In Running no status is posted yet. -/
theorem Inv.status_of_running {s : State} (h : Inv s) (htag : s.tag = .running) : s.status = none := by
  obtain ⟨-, -, -, -, -, -, hstatus, -⟩ := h
  exact ((statusOk_of_running htag).mp hstatus).2

/-- Settles O48: from Running the status slot is empty, and of the driver's events `take` alone empties it. -/
theorem channelsKeepOrder : Obligations.ChannelsKeepOrder := by
  intro s t hinv hstep
  rcases step_next hstep with ⟨rest, hmove⟩ | ⟨rest, rfl⟩ | ⟨e, rest, u, -, -, hmove, rfl⟩
  · cases hmove with
    | @instr i htag =>
      obtain ⟨hinq, hinslot, houtq⟩ := completed_channels i (State.grow { s with script := rest } s.ip)
      obtain ⟨-, -, -, hreceived, -⟩ := completed_frame i (State.grow { s with script := rest } s.ip)
      exact ⟨hinq, hinslot.imp_right .inr, houtq, .inr (.inl (hinv.status_of_running htag)), .inl hreceived⟩
    | fault htag =>
      exact ⟨.inl rfl, .inl rfl, .inl rfl, .inr (.inl (hinv.status_of_running htag)), .inl rfl⟩
    | wake => exact ⟨.inl rfl, .inl rfl, .inl rfl, .inl rfl, .inl rfl⟩
  · exact ⟨.inl rfl, .inl rfl, .inl rfl, .inl rfl, .inl rfl⟩
  · cases hmove with
    | send _ hslot => exact ⟨.inl rfl, .inr (.inl hslot), .inl rfl, .inl rfl, .inl rfl⟩
    | start => exact ⟨.inl rfl, .inl rfl, .inl rfl, .inl rfl, .inl rfl⟩
    | answerEnd hst => exact ⟨.inl rfl, .inl rfl, .inl rfl, .inr (.inl hst), .inl rfl⟩
    | take hst =>
      exact ⟨.inl rfl, .inl rfl, .inl rfl, .inr (.inr ⟨rfl, _, hst, rfl⟩), .inr ⟨_, hst, rfl⟩⟩

/-! ## The time of a send (R158) -/

/-- `s` with the input slot `x`. -/
def State.withSlot (x : Option Int) (s : State) : State := { s with inslot := x }

@[simp] theorem State.withSlot_params (x : Option Int) (s : State) : (s.withSlot x).params = s.params := rfl
@[simp] theorem State.withSlot_rb (x : Option Int) (s : State) : (s.withSlot x).rb = s.rb := rfl

/-- A stage's result with the input slot `x` in its state. -/
def Res.withSlot {α : Type} (x : Option Int) (r : Res α) : Res α :=
  match r with
  | .ok a s => .ok a (s.withSlot x)
  | .raised k d s => .raised k d (s.withSlot x)

/-- A stage that neither reads nor writes the input slot. -/
def IgnoresSlot {α : Type} (g : State → Res α) : Prop := ∀ x s, g (s.withSlot x) = (g s).withSlot x

theorem IgnoresSlot.andThen {α β : Type} {g : State → Res α} {f : α → State → Res β} (hg : IgnoresSlot g)
    (hf : ∀ a, IgnoresSlot (f a)) : IgnoresSlot fun s => (g s).andThen f := by
  intro x s
  simp only [hg x s]
  cases g s with
  | ok a t => exact hf a x t
  | raised k d t => rfl

theorem ignoresSlot_memRead (a : Int) : IgnoresSlot (memRead a) := by
  intro x s
  simp only [memRead, State.withSlot_params]
  cases accessFault s.params a <;> rfl

theorem ignoresSlot_memWrite (a v : Int) : IgnoresSlot (memWrite a v) := by
  intro x s
  simp only [memWrite, State.withSlot_params]
  cases accessFault s.params a <;> rfl

theorem ignoresSlot_resolveRead (m : Mode) (raw : Int) : IgnoresSlot (resolveRead m raw) := by
  intro x s
  simp only [resolveRead, State.withSlot_rb]
  cases effAddr m raw s.rb with
  | none => rfl
  | some a => exact ignoresSlot_memRead a x s

theorem ignoresSlot_resolveWrite (i : Nat) (m : Mode) (raw : Int) : IgnoresSlot (resolveWrite i m raw) := by
  intro x s
  simp only [resolveWrite, State.withSlot_rb, State.withSlot_params]
  cases effAddr m raw s.rb with
  | none => rfl
  | some a => simp only; cases accessFault s.params a <;> rfl

theorem ignoresSlot_readParam (i : Nat) (m : Mode) : IgnoresSlot (readParam i m) := fun x s =>
  (ignoresSlot_memRead ((s.ip + i : Nat) : Int)).andThen (ignoresSlot_resolveRead m) x s

theorem ignoresSlot_writeParam (i : Nat) (m : Mode) : IgnoresSlot (writeParam i m) := fun x s =>
  (ignoresSlot_memRead ((s.ip + i : Nat) : Int)).andThen (ignoresSlot_resolveWrite i m) x s

theorem ignoresSlot_checked (v : Int) (op : Nat) : IgnoresSlot (checked v op) := by
  intro x s
  by_cases h : Fits s.params.wordBits v
  · rw [checked_of_fits h, checked_of_fits (s := s.withSlot x) h]
    rfl
  · cases hmode : s.params.overflow with
    | fault => rw [checked_of_overflow h hmode, checked_of_overflow (s := s.withSlot x) h hmode]; rfl
    | wrap => rw [checked_of_wrap h hmode, checked_of_wrap (s := s.withSlot x) h hmode]; rfl

theorem ignoresSlot_jumpTo (d : Int) : IgnoresSlot (jumpTo d) := by
  intro x s
  unfold jumpTo
  split <;> rfl

/-- An instruction whose next state is the same but for the input slot, whatever the slot holds. -/
def NextIgnoresSlot (o : State → Host.Outcome State Fault Refusal) : Prop :=
  ∀ x s t, o s = .next t → o (s.withSlot x) = .next (t.withSlot x)

theorem IgnoresSlot.finish {g : State → Res Unit} (hg : IgnoresSlot g) : NextIgnoresSlot fun s => finish (g s) := by
  intro x s t h
  simp only [hg x s]
  cases hr : g s with
  | ok u v => simp only [hr] at h; cases h; rfl
  | raised k d v => simp only [hr] at h; cases h; rfl

theorem nextIgnoresSlot_binaryToDst {a b dst : Mode} {f : Int → Int → State → Res Int}
    (hf : ∀ y z, IgnoresSlot (f y z)) : NextIgnoresSlot (binaryToDst a b dst f) := by
  refine IgnoresSlot.finish ?_
  refine (ignoresSlot_readParam 1 a).andThen fun y => (ignoresSlot_readParam 2 b).andThen fun z => ?_
  refine (ignoresSlot_writeParam 3 dst).andThen fun d => (hf y z).andThen fun r => ?_
  exact (ignoresSlot_memWrite d r).andThen fun _ _ _ => rfl

theorem nextIgnoresSlot_jumpWhen (taken : Int → Bool) (c d : Mode) : NextIgnoresSlot (jumpWhen taken c d) := by
  refine IgnoresSlot.finish ?_
  refine (ignoresSlot_readParam 1 c).andThen fun y => (ignoresSlot_readParam 2 d).andThen fun z => ?_
  split
  · exact ignoresSlot_jumpTo z
  · exact fun _ _ => rfl

theorem nextIgnoresSlot_adjustBase (a : Mode) : NextIgnoresSlot (execAdjustBase a) := by
  refine IgnoresSlot.finish ((ignoresSlot_readParam 1 a).andThen fun v x s => ?_)
  exact ((ignoresSlot_checked (s.rb + v) 9).andThen
    (f := fun r u => .ok () ({ u with rb := r }.advance 2)) fun _ _ _ => rfl) x s

theorem nextIgnoresSlot_output (a : Mode) : NextIgnoresSlot (execOutput a) := by
  refine IgnoresSlot.finish ((ignoresSlot_readParam 1 a).andThen fun v x s => ?_)
  cases hmode : s.params.ioMode with
  | sync =>
    rw [chanPut_sync (s := s.advance 2) hmode, chanPut_sync (s := (s.withSlot x).advance 2) hmode]
    rfl
  | stream =>
    rw [chanPut_stream (s := s.advance 2) hmode, chanPut_stream (s := (s.withSlot x).advance 2) hmode]
    rfl

theorem nextIgnoresSlot_halt : NextIgnoresSlot (exec .halt) := by
  intro x s t h
  cases hmode : s.params.ioMode with
  | sync => rw [exec_halt_of_sync hmode] at h; cases h; exact exec_halt_of_sync (s := s.withSlot x) hmode
  | stream => rw [exec_halt_of_stream hmode] at h; cases h; exact exec_halt_of_stream (s := s.withSlot x) hmode

/-- Every instruction but input. -/
theorem nextIgnoresSlot_exec {i : Instr} (hi : ∀ dst, i ≠ .input dst) : NextIgnoresSlot (exec i) := by
  cases i with
  | add a b dst | mul a b dst => exact nextIgnoresSlot_binaryToDst fun _ _ => ignoresSlot_checked _ _
  | lessThan a b dst | equals a b dst => exact nextIgnoresSlot_binaryToDst fun _ _ _ _ => rfl
  | input dst => exact absurd rfl (hi dst)
  | output a => exact nextIgnoresSlot_output a
  | jumpIfTrue c d | jumpIfFalse c d => exact nextIgnoresSlot_jumpWhen _ c d
  | adjustBase a => exact nextIgnoresSlot_adjustBase a
  | halt => exact nextIgnoresSlot_halt

theorem instructionStep_withSlot {s t : State} (hd : ∀ dst, decode (s.mem.read s.ip) ≠ .ok (.input dst))
    (x : Option Int) (h : instructionStep s = .next t) : instructionStep (s.withSlot x) = .next (t.withSlot x) := by
  rcases fetchDecode_cases s with ⟨i, hin, hi, -⟩ | ⟨hin, ⟨e, he⟩, -⟩ | ⟨k, d, hf, -⟩
  · rw [instructionStep_of_decode hin hi] at h
    rw [instructionStep_of_decode (s := s.withSlot x) hin hi]
    exact nextIgnoresSlot_exec (fun dst hdst => hd dst (hdst ▸ hi)) x _ _ h
  · have hno : ∀ i, decode (s.mem.read s.ip) ≠ .ok i := by simp [he]
    rw [instructionStep_of_noDecode hin hno] at h
    cases h
    exact instructionStep_of_noDecode (s := s.withSlot x) hin hno
  · rw [instructionStep_of_fetchFault hf] at h
    cases h
    exact instructionStep_of_fetchFault (s := s.withSlot x) hf

/-- Settles O55: no stage of another instruction reads or writes the input slot. -/
theorem sendCommutesWithOtherInstructions : Obligations.SendCommutesWithOtherInstructions := by
  intro s t v htag hscript hd hstep
  rw [step_of_running htag hscript] at hstep
  exact (step_of_running (s := s.withSlot (some v)) htag hscript).trans (instructionStep_withSlot hd (some v) hstep)

/-! ## The wait for an input (R89) -/

/-- The input instruction of a stream state with the slot full. -/
theorem instructionStep_input_some {s : State} {dst : Mode} {v : Int} (hmode : s.params.ioMode = .stream)
    (hin : InRange s.params s.ip = true) (hd : decode (s.mem.read s.ip) = .ok (.input dst))
    (hdst : writable s 1 dst = true) (hslot : s.inslot = some v) :
    instructionStep s = .next (inputStored ((s.grow s.ip).withSlot none) dst v) := by
  rw [instructionStep_of_decode hin hd, exec_input_of_writable (by exact hdst) (by simp [hmode]),
    inputCompleted_stream_some (s := s.grow s.ip) dst hmode hslot]
  rfl

/-- The input instruction of a stream state with the slot empty. -/
theorem instructionStep_input_none {s : State} {dst : Mode} (hmode : s.params.ioMode = .stream)
    (hin : InRange s.params s.ip = true) (hd : decode (s.mem.read s.ip) = .ok (.input dst))
    (hdst : writable s 1 dst = true) (hslot : s.inslot = none) :
    instructionStep s = .next (waiting (s.grow s.ip)) := by
  rw [instructionStep_of_decode hin hd, exec_input_of_writable (by exact hdst) (by simp [hmode]),
    inputCompleted_stream_none (s := s.grow s.ip) dst hmode hslot]

theorem step_of_awaiting {s : State} {v : Int} (htag : s.tag = .awaitingInput) (hscript : s.script = [])
    (hslot : s.inslot = some v) : step s = .next { s with tag := .running } := by
  rw [step_of_script_nil hscript]
  simp only [coreStep, htag, wakeStep, hslot]

/-- The Core of `s` waiting for an input, woken with the slot `x` (R89). -/
def woken (x : Option Int) (s : State) : State := { (waiting (s.grow s.ip)).withSlot x with tag := .running }

theorem inputStored_memLen_tag (s : State) (n : Nat) (tag : Tag) (dst : Mode) (v : Int) :
    inputStored { s with memLen := n, tag := tag } dst v =
      { inputStored s dst v with memLen := grownTo n (touched s 1 dst), tag := tag } := rfl

/-- The wait grows MemLen over the raw word, which the input that runs again touches in any case. -/
theorem inputStored_woken {s : State} {dst : Mode} (hdst : writable s 1 dst = true) (htag : s.tag = .running)
    (x : Option Int) (v : Int) :
    inputStored (((woken x s).grow s.ip).withSlot none) dst v = inputStored ((s.grow s.ip).withSlot none) dst v := by
  have hwoken : ((woken x s).grow s.ip).withSlot none = { s.withSlot none with
      memLen := max (max (max s.memLen (s.ip + 1)) (s.ip + 2)) (s.ip + 1), tag := .running } := by
    simp only [woken, waiting, State.withSlot, State.grow]
  have hgrown : (s.grow s.ip).withSlot none =
      { s.withSlot none with memLen := max s.memLen (s.ip + 1), tag := .running } := by
    simp only [State.withSlot, State.grow, htag]
  obtain ⟨-, -, htouched, -⟩ := writeParam_of_safe ((writeFault_eq_none_iff s 1 dst).mpr hdst)
  have hlen : grownTo (max (max (max s.memLen (s.ip + 1)) (s.ip + 2)) (s.ip + 1)) (touched (s.withSlot none) 1 dst) =
      grownTo (max s.memLen (s.ip + 1)) (touched (s.withSlot none) 1 dst) := by
    rw [show touched (s.withSlot none) 1 dst = _ from htouched]
    simp only [grownTo_cons, grownTo_nil]
    omega
  rw [hwoken, hgrown]
  refine (inputStored_memLen_tag (s.withSlot none) _ _ dst v).trans (Eq.trans ?_ (inputStored_memLen_tag ..).symm)
  rw [hlen]

/-- Settles O53: the wait, the wake, and the input run again from its fetch. -/
theorem waitingInputResumesAsIfNeverWaited : Obligations.WaitingInputResumesAsIfNeverWaited := by
  intro s dst v hmode htag hscript hslot hin hd hdst
  have hwait : step s = .next (waiting (s.grow s.ip)) :=
    (step_of_running htag hscript).trans (instructionStep_input_none hmode hin hd hdst hslot)
  have hwake : step ((waiting (s.grow s.ip)).withSlot (some v)) = .next (woken (some v) s) :=
    step_of_awaiting rfl hscript rfl
  have hagain : step (woken (some v) s) = .next (inputStored (((woken (some v) s).grow s.ip).withSlot none) dst v) :=
    (step_of_running (s := woken (some v) s) rfl hscript).trans
      (instructionStep_input_some (s := woken (some v) s) hmode hin hd hdst rfl)
  have honce : step (s.withSlot (some v)) = .next (inputStored ((s.grow s.ip).withSlot none) dst v) :=
    (step_of_running (s := s.withSlot (some v)) htag hscript).trans
      (instructionStep_input_some (s := s.withSlot (some v)) hmode hin hd hdst rfl)
  exact ⟨_, _, _, hwait, rfl, rfl, rfl, hwake, hagain.trans (congrArg _ (inputStored_woken hdst htag _ v)), honce⟩

end Sys2Proof.Machine

/-! PROOFS. The statements about whole runs: R129, and R109, that the stream driver takes what the sync run returns. -/

namespace Sys2Proof.Machine

/-! ## The sync run -/

theorem runToEnd_of_not_running (fuel : Nat) {s : State} (h : s.tag ≠ .running) : runToEnd fuel s = some s := by
  cases fuel <;> simp only [runToEnd, if_neg h]

/-- A run to the end from Running makes a step first. -/
theorem step_of_runToEnd {fuel : Nat} {s e : State} (htag : s.tag = .running) (h : runToEnd fuel s = some e) :
    ∃ fuel' t, fuel = fuel' + 1 ∧ step s = .next t ∧ runToEnd fuel' t = some e := by
  cases fuel with
  | zero => rw [runToEnd, if_pos htag] at h; cases h
  | succ fuel =>
    rw [runToEnd, if_pos htag] at h
    split at h
    next t hstep => exact ⟨fuel, t, rfl, hstep, h⟩
    next => cases h
    next => cases h

theorem snapshot_freshState (p : Params) (image : List Int) : (freshState p image).snapshot = image := by
  refine List.ext_getElem (State.snapshot_length _) fun a _ ha => ?_
  have hread := read_freshState p image a
  rw [List.getD_eq_getElem _ _ ha] at hread
  simpa [State.snapshot] using hread

/-- Settles O56: the first step halts, and the snapshot of a fresh state is its image. -/
theorem haltFirstImageIsReturned : Obligations.HaltFirstImageIsReturned := by
  intro p image inputs s fuel hs hhead hfuel
  have hstep := step_of_constructSync hs hhead
  obtain ⟨⟨hmode, -⟩, rfl⟩ := constructSync_eq_some_iff.mp hs
  rw [exec_halt_of_sync (s := freshSync p image inputs) hmode] at hstep
  obtain ⟨fuel, rfl⟩ := Nat.exists_eq_add_of_le' hfuel
  have hend : runToEnd (fuel + 1) (freshSync p image inputs) =
      some { freshSync p image inputs with tag := .halted } := by
    have htag : (freshSync p image inputs).tag = .running := rfl
    rw [runToEnd, if_pos htag, hstep]
    exact runToEnd_of_not_running fuel nofun
  rw [runSync, hs, Option.bind_some, hend, Option.bind_some, runResult_of_halted rfl]
  exact congrArg (fun m => some (RunResult.ok m [])) (snapshot_freshState p image)

/-- A sync run that returns has an end state that returns the same. -/
theorem runSync_eq_some {fuel : Nat} {p : Params} {image inputs : List Int} {res : RunResult}
    (h : runSync fuel p image inputs = some res) :
    ∃ s e, constructSync p image inputs = some s ∧ runToEnd fuel s = some e ∧ runResult e = some res := by
  obtain ⟨e, he, hres⟩ := Option.bind_eq_some_iff.mp h
  obtain ⟨s, hs, hrun⟩ := Option.bind_eq_some_iff.mp he
  exact ⟨s, e, hs, hrun, hres⟩

theorem outq_of_runResult_ok {e : State} {mem outs : List Int} (h : runResult e = some (.ok mem outs)) :
    outs = e.outq := by
  unfold runResult at h
  split at h
  · cases h; rfl
  · split at h <;> cases h
  · cases h

/-! ## Turns of the stream driver -/

/-- The driver has nothing to send, or no room for it. -/
def Fed (ins : List Int) (u : State) : Prop := ins = [] ∨ u.inslot ≠ none

theorem nextDrive_send {v : Int} {rest : List Int} {u : State} (h : u.inslot = none) :
    nextDrive (v :: rest) u = (.driver (.send v), rest) := by
  simp only [nextDrive, h]

/-- A fed driver takes a status, advances an Idle Core, or leaves the turn to the Core. -/
theorem nextDrive_of_fed {ins : List Int} {u : State} (h : Fed ins u) :
    nextDrive ins u =
      (if u.status ≠ none then .driver .take else if u.tag = .idle then .driver .advance else .core, ins) := by
  unfold nextDrive
  split
  next hslot => exact absurd hslot (h.resolve_left (List.cons_ne_nil _ _))
  next =>
    split
    next hst => simp [hst]
    next hst htag => simp [hst, htag]
    next hst htag => simp [hst, show u.tag ≠ .idle from fun h => htag h]

/-- One turn of the driver. -/
def DriveTurn (ins : List Int) (u : State) (ins' : List Int) (u' : State) : Prop :=
  ∃ turn, nextDrive ins u = (turn, ins') ∧ step { u with script := [turn] } = .next u'

theorem DriveTurn.driveState_succ {ins ins' : List Int} {u u' : State} (h : DriveTurn ins u ins' u') (n : Nat) :
    driveState (n + 1) ins u = driveState n ins' u' := by
  obtain ⟨turn, hnext, hstep⟩ := h
  simp only [driveState, hnext, hstep]

theorem DriveTurn.drive_succ {ins ins' : List Int} {u u' : State} (h : DriveTurn ins u ins' u') (hu : u.tag ≠ .ended)
    (n : Nat) : drive (n + 1) ins u = drive n ins' u' := by
  obtain ⟨turn, hnext, hstep⟩ := h
  simp only [drive, if_neg hu, hnext, hstep]

/-- A number of turns that succeeds begins with a turn. -/
theorem driveTurn_of_driveState {n : Nat} {ins ins' : List Int} {u u' : State}
    (h : driveState (n + 1) ins u = some (ins', u')) :
    ∃ ins₁ u₁, DriveTurn ins u ins₁ u₁ ∧ driveState n ins₁ u₁ = some (ins', u') := by
  rw [driveState] at h
  split at h
  next t hstep => exact ⟨_, t, ⟨_, rfl, hstep⟩, h⟩
  next => cases h
  next => cases h

theorem driveState_add {m : Nat} {ins ins' : List Int} {u u' : State} (h : driveState m ins u = some (ins', u'))
    (n : Nat) : driveState (m + n) ins u = driveState n ins' u' := by
  induction m generalizing ins u with
  | zero => cases h; rw [Nat.zero_add]
  | succ m ih =>
    obtain ⟨ins₁, u₁, hturn, hrest⟩ := driveTurn_of_driveState h
    rw [Nat.add_right_comm, hturn.driveState_succ, ih hrest]

/-- Ended is terminal (R26). -/
theorem tag_of_step_ended {s t : State} (hs : s.tag = .ended) (h : step s = .next t) : t.tag = .ended := by
  rcases step_next h with ⟨rest, hmove⟩ | ⟨rest, rfl⟩ | ⟨e, rest, u, -, -, hmove, rfl⟩
  · cases hmove with
    | instr htag => exact absurd (hs.symm.trans htag) (by decide)
    | fault htag => exact absurd (hs.symm.trans htag) (by decide)
    | wake htag => exact absurd (hs.symm.trans htag) (by decide)
  · exact hs
  · cases hmove with
    | send => exact hs
    | start _ htag => exact absurd (hs.symm.trans htag) (by decide)
    | answerEnd => exact hs
    | take => simp only [hs, ite_self]

theorem tag_of_driveState_ended {n : Nat} {ins ins' : List Int} {u u' : State} (hu : u.tag = .ended)
    (h : driveState n ins u = some (ins', u')) : u'.tag = .ended := by
  induction n generalizing ins u with
  | zero => cases h; exact hu
  | succ n ih =>
    obtain ⟨ins₁, u₁, ⟨turn, -, hstep⟩, hrest⟩ := driveTurn_of_driveState h
    exact ih (tag_of_step_ended (s := { u with script := [turn] }) hu hstep) hrest

/-- Until a state that is not Ended, the driver makes the same turns whether or not it stops at Ended. -/
theorem drive_add {m : Nat} {ins ins' : List Int} {u u' : State} (h : driveState m ins u = some (ins', u'))
    (hu' : u'.tag ≠ .ended) (n : Nat) : drive (m + n) ins u = drive n ins' u' := by
  induction m generalizing ins u with
  | zero => cases h; rw [Nat.zero_add]
  | succ m ih =>
    have hu : u.tag ≠ .ended := fun hended => hu' (tag_of_driveState_ended hended h)
    obtain ⟨ins₁, u₁, hturn, hrest⟩ := driveTurn_of_driveState h
    rw [Nat.add_right_comm, hturn.drive_succ hu, ih hrest]

/-- A driver that stops has reached Ended. -/
theorem ended_of_drive {n : Nat} {ins : List Int} {u : State} {taken : List Status} (h : drive n ins u = some taken) :
    ∃ m ins' u', driveState m ins u = some (ins', u') ∧ u'.tag = .ended := by
  induction n generalizing ins u with
  | zero =>
    rw [drive] at h
    split at h
    next hu => exact ⟨0, ins, u, rfl, hu⟩
    next => cases h
  | succ n ih =>
    rw [drive] at h
    split at h
    next hu => exact ⟨0, ins, u, rfl, hu⟩
    next =>
      split at h
      next t hstep =>
        obtain ⟨m, ins', u', hm, hended⟩ := ih h
        have hturn : DriveTurn ins u _ t := ⟨_, rfl, hstep⟩
        exact ⟨m + 1, ins', u', (hturn.driveState_succ m).trans hm, hended⟩
      next => cases h
      next => cases h

/-! ## The stream state that follows a sync state -/

/-- The stream machine in the Core state of `s`, with a slot, a status, a STATE and statuses taken of its own. -/
def mirror (s : State) (slot : Option Int) (st : Option Status) (tag : Tag) (taken : List Status) : State :=
  { s with
    params := { s.params with ioMode := .stream }
    inq := []
    outq := []
    inslot := slot
    status := st
    tag := tag
    script := []
    received := taken }

/-- What a Running sync state and the stream side share: the inputs not yet consumed are the slot and those the driver
has left; the outputs put are the statuses taken and the one posted. -/
structure Follows (s : State) (ins : List Int) (slot : Option Int) (st : Option Status) (taken : List Status) :
    Prop where
  mode : s.params.ioMode = .sync
  running : s.tag = .running
  script : s.script = []
  inputs : s.inq = slot.toList ++ ins
  outputs : s.outq.map .output = taken ++ st.toList
  fits : WordsFit s.params.wordBits ins

theorem Follows.send {s : State} {v : Int} {ins : List Int} {st : Option Status} {taken : List Status}
    (h : Follows s (v :: ins) none st taken) : Follows s ins (some v) st taken :=
  { h with inputs := h.inputs, fits := fun w hw => h.fits w (List.mem_cons_of_mem _ hw) }

theorem Follows.take {s : State} {ins : List Int} {slot : Option Int} {st : Status} {taken : List Status}
    (h : Follows s ins slot (some st) taken) : Follows s ins slot none (taken ++ [st]) :=
  { h with outputs := by rw [h.outputs]; simp }

/-- The status posted while the sync run goes on is an output. -/
theorem Follows.status_output {s : State} {ins : List Int} {slot : Option Int} {st : Status} {taken : List Status}
    (h : Follows s ins slot (some st) taken) : st.isFinal = false := by
  have hmem : st ∈ s.outq.map Status.output := by rw [h.outputs]; simp
  obtain ⟨v, -, rfl⟩ := List.mem_map.mp hmem
  rfl

section Turns

variable {s : State} {ins : List Int} {slot : Option Int} {st : Option Status} {tag : Tag} {taken : List Status}

theorem driveTurn_send {v : Int} (hfits : Fits s.params.wordBits v) :
    DriveTurn (v :: ins) (mirror s none st tag taken) ins (mirror s (some v) st tag taken) :=
  ⟨_, nextDrive_send rfl,
    (sendFillsTheEmptySlot { mirror s none st tag taken with script := [.driver (.send v)] } v [] rfl rfl).1 hfits rfl⟩

theorem driveTurn_take {st : Status} (hfed : Fed ins (mirror s slot (some st) tag taken)) :
    DriveTurn ins (mirror s slot (some st) tag taken) ins
      (mirror s slot none (if st.isFinal then .ended else tag) (taken ++ [st])) :=
  ⟨_, nextDrive_of_fed hfed,
    step_of_take (s := { mirror s slot (some st) tag taken with script := [.driver .take] }) rfl rfl rfl⟩

theorem driveTurn_advance (hfed : Fed ins (mirror s slot none .idle taken)) :
    DriveTurn ins (mirror s slot none .idle taken) ins (mirror s slot none .running taken) :=
  ⟨_, nextDrive_of_fed hfed,
    (advanceStartsTheCoreOrAnswersEnd { mirror s slot none .idle taken with script := [.driver .advance] } [] rfl
      rfl).1 rfl rfl⟩

theorem driveTurn_core {u' : State} (hfed : Fed ins (mirror s slot none .running taken))
    (h : instructionStep (mirror s slot none .running taken) = .next u') :
    DriveTurn ins (mirror s slot none .running taken) ins u' :=
  ⟨_, nextDrive_of_fed hfed,
    (step_of_core (s := { mirror s slot none .running taken with script := [.core] }) rfl rfl).trans h⟩

end Turns

/-! ## What the two machines do alike -/

section Mirror

variable (s : State) (slot : Option Int) (st : Option Status) (tag : Tag) (taken : List Status)

theorem firstFault_mirror {i : Instr} (hi : ∀ dst, i ≠ .input dst) :
    firstFault i (mirror s slot st tag taken) = firstFault i s := by
  cases i with
  | input dst => exact absurd rfl (hi dst)
  | _ => rfl

theorem firstFault_input_mirror (dst : Mode) :
    firstFault (.input dst) (mirror s slot st tag taken) = writeFault s 1 dst :=
  (Option.or_none : (writeFault s 1 dst).or none = _)

/-- A fault of the stream Core's cycle is the sync Core's too. -/
theorem cycleFault_of_mirror {kd : FaultKind × Int} (h : cycleFault (mirror s slot st tag taken) = some kd) :
    cycleFault s = some kd := by
  rcases Option.or_eq_some_iff.mp h with hfetch | ⟨hfetch, hrest⟩
  · exact Option.or_eq_some_iff.mpr (.inl hfetch)
  · refine Option.or_eq_some_iff.mpr (.inr ⟨hfetch, ?_⟩)
    rw [show (mirror s slot st tag taken).mem.read (mirror s slot st tag taken).ip = s.mem.read s.ip from rfl] at hrest
    cases hd : decode (s.mem.read s.ip) with
    | error e => rw [hd] at hrest; exact hrest
    | ok i =>
      rw [hd] at hrest
      by_cases hi : ∃ dst, i = .input dst
      · obtain ⟨dst, rfl⟩ := hi
        exact Option.or_eq_some_iff.mpr (.inl ((firstFault_input_mirror s slot st tag taken dst).symm.trans hrest))
      · exact (firstFault_mirror s slot st tag taken fun dst hdst => hi ⟨dst, hdst⟩).symm.trans hrest

end Mirror

/-- An instruction that neither halts nor uses a channel. -/
def QuietInstr (i : Instr) : Prop := (∀ m, i ≠ .input m) ∧ (∀ m, i ≠ .output m) ∧ i ≠ .halt

theorem completed_mirror {i : Instr} (hi : QuietInstr i) (s : State) (slot : Option Int) (st : Option Status)
    (tag : Tag) (taken : List Status) : completed i (mirror s slot st tag taken) = mirror (completed i s) slot st tag taken := by
  obtain ⟨hin, hout, hhalt⟩ := hi
  cases i with
  | input m => exact absurd rfl (hin m)
  | output m => exact absurd rfl (hout m)
  | halt => exact absurd rfl hhalt
  | _ => rfl

theorem Follows.completed {i : Instr} (hi : QuietInstr i) {s : State} {ins : List Int} {slot : Option Int}
    {st : Option Status} {taken : List Status} (h : Follows s ins slot st taken) :
    Follows (completed i s) ins slot st taken := by
  obtain ⟨hin, hout, hhalt⟩ := hi
  cases i with
  | input m => exact absurd rfl (hin m)
  | output m => exact absurd rfl (hout m)
  | halt => exact absurd rfl hhalt
  | _ => exact ⟨h.mode, h.running, h.script, h.inputs, h.outputs, h.fits⟩

/-! ## Only a starved sync input raises StarvedInput -/

/-- The fault is not StarvedInput. -/
def NotStarved (f : Option (FaultKind × Int)) : Prop := ∀ k d, f = some (k, d) → k ≠ .starvedInput

theorem NotStarved.or {f g : Option (FaultKind × Int)} (hf : NotStarved f) (hg : NotStarved g) :
    NotStarved (f.or g) := by
  intro k d h
  rcases Option.or_eq_some_iff.mp h with h | ⟨-, h⟩
  · exact hf k d h
  · exact hg k d h

theorem notStarved_accessFaultAt (p : Params) (a : Int) : NotStarved (accessFaultAt p a) := by
  intro k d h
  unfold accessFaultAt at h
  split at h
  · cases h; decide
  · split at h
    · cases h
    · cases h; decide

theorem notStarved_readFault (s : State) (i : Nat) (m : Mode) : NotStarved (readFault s i m) := by
  refine (notStarved_accessFaultAt _ _).or fun k d h => ?_
  obtain ⟨a, -, ha⟩ := Option.bind_eq_some_iff.mp h
  exact notStarved_accessFaultAt _ _ k d ha

theorem notStarved_writeFault (s : State) (i : Nat) (m : Mode) : NotStarved (writeFault s i m) := by
  refine (notStarved_accessFaultAt _ _).or ?_
  split
  · intro k d h; cases h; decide
  · exact notStarved_accessFaultAt _ _

theorem notStarved_overflowFault (p : Params) (v : Int) (op : Nat) : NotStarved (overflowFault p v op) := by
  intro k d h
  unfold overflowFault at h
  split at h
  · cases h; decide
  · cases h

theorem notStarved_jumpFault (isTaken : Bool) (dest : Int) : NotStarved (jumpFault isTaken dest) := by
  intro k d h
  unfold jumpFault at h
  split at h
  · cases h; decide
  · cases h

theorem notStarved_threeFault (s : State) (a b dst : Mode) : NotStarved (threeFault s a b dst) :=
  ((notStarved_readFault s 1 a).or (notStarved_readFault s 2 b)).or (notStarved_writeFault s 3 dst)

theorem notStarved_firstFault {i : Instr} (s : State) (hi : ∀ dst, i ≠ .input dst) : NotStarved (firstFault i s) := by
  cases i with
  | input dst => exact absurd rfl (hi dst)
  | add a b dst | mul a b dst => exact (notStarved_threeFault s a b dst).or (notStarved_overflowFault _ _ _)
  | lessThan a b dst | equals a b dst => exact notStarved_threeFault s a b dst
  | output a => exact notStarved_readFault s 1 a
  | jumpIfTrue c t | jumpIfFalse c t =>
    exact ((notStarved_readFault s 1 c).or (notStarved_readFault s 2 t)).or (notStarved_jumpFault _ _)
  | adjustBase a => exact (notStarved_readFault s 1 a).or (notStarved_overflowFault _ _ _)
  | halt => nofun

/-- The stream Core never starves (R99). -/
theorem notStarved_cycleFault_mirror (s : State) (slot : Option Int) (st : Option Status) (tag : Tag)
    (taken : List Status) : NotStarved (cycleFault (mirror s slot st tag taken)) := by
  refine (notStarved_accessFaultAt _ _).or ?_
  split
  · intro k d h; cases h; decide
  · next i _ =>
    by_cases hi : ∃ dst, i = .input dst
    · obtain ⟨dst, rfl⟩ := hi
      rw [firstFault_input_mirror]
      exact notStarved_writeFault s 1 dst
    · exact notStarved_firstFault _ fun dst hdst => hi ⟨dst, hdst⟩

/-! ## The end of the two runs -/

/-- The final status that hands over what the sync run returns (R109). -/
def finalStatus : RunResult → Status
  | .ok mem _ => .terminated mem
  | .err r => .faulted r

/-- What the stream side is at when the sync run has ended in `e`: the final status is posted, or, where the sync run
starved, the Core waits with the inputs used up. -/
inductive Ending (e : State) (ins : List Int) (u : State) : Prop
  | final (res : RunResult) (hres : runResult e = some res) (hkind : ∀ r, res = .err r → r.kind ≠ .starvedInput)
      (hstatus : u.status = some (finalStatus res)) (htag : u.tag ≠ .ended) (hfed : Fed ins u)
  | starved (r : FaultRecord) (hres : runResult e = some (.err r)) (hkind : r.kind = .starvedInput) (hins : ins = [])
      (htag : u.tag = .awaitingInput) (hslot : u.inslot = none) (hstatus : u.status = none)

/-- The driver comes to the end that belongs to `e`, having taken the outputs the sync run had put. -/
def Ends (e : State) (ins : List Int) (u : State) : Prop :=
  ∃ n ins' u', driveState n ins u = some (ins', u') ∧ u'.params.ioMode = .stream ∧
    u'.received = e.outq.map .output ∧ Ending e ins' u'

theorem DriveTurn.ends {e : State} {ins ins' : List Int} {u u' : State} (h : DriveTurn ins u ins' u')
    (hends : Ends e ins' u') : Ends e ins u := by
  obtain ⟨n, ins₁, u₁, hn, hrest⟩ := hends
  exact ⟨n + 1, ins₁, u₁, (h.driveState_succ n).trans hn, hrest⟩

theorem Ends.now {e : State} {ins : List Int} {u : State} (hmode : u.params.ioMode = .stream)
    (hreceived : u.received = e.outq.map .output) (h : Ending e ins u) : Ends e ins u :=
  ⟨0, ins, u, rfl, hmode, hreceived, h⟩

/-! ## The simulation -/

theorem Follows.grow {s : State} {ins : List Int} {slot : Option Int} {st : Option Status} {taken : List Status}
    (h : Follows s ins slot st taken) (a : Nat) : Follows (s.grow a) ins slot st taken :=
  ⟨h.mode, h.running, h.script, h.inputs, h.outputs, h.fits⟩

/-- A fed driver takes the output posted and starts the Core, if it is paused. -/
theorem ends_of_fed {e s : State} {ins : List Int} {slot : Option Int} {st : Option Status} {tag : Tag}
    {taken : List Status} (h : Follows s ins slot st taken) (htag : tag = .idle ∨ tag = .running ∧ st = none)
    (hfed : Fed ins (mirror s slot st tag taken))
    (hready : ∀ taken, Follows s ins slot none taken → Ends e ins (mirror s slot none .running taken)) :
    Ends e ins (mirror s slot st tag taken) := by
  cases st with
  | none =>
    rcases htag with rfl | ⟨rfl, -⟩
    · exact (driveTurn_advance hfed).ends (hready taken h)
    · exact hready taken h
  | some st =>
    obtain rfl : tag = .idle := htag.resolve_right fun hr => Option.some_ne_none st hr.2
    have htake := driveTurn_take hfed
    rw [h.status_output, if_neg Bool.false_ne_true] at htake
    exact htake.ends ((driveTurn_advance hfed).ends (hready _ h.take))

/-- The driver first fills an empty slot, if it has an input left. -/
theorem ends_of_ready {e s : State} {ins : List Int} {slot : Option Int} {st : Option Status} {tag : Tag}
    {taken : List Status} (h : Follows s ins slot st taken) (htag : tag = .idle ∨ tag = .running ∧ st = none)
    (hready : ∀ ins slot taken, Follows s ins slot none taken → Fed ins (mirror s slot none .running taken) →
      Ends e ins (mirror s slot none .running taken)) :
    Ends e ins (mirror s slot st tag taken) := by
  by_cases hfed : Fed ins (mirror s slot st tag taken)
  · exact ends_of_fed h htag hfed fun taken' h' => hready ins slot taken' h' hfed
  · obtain ⟨hne, hslot⟩ := not_or.mp hfed
    obtain ⟨v, rest, rfl⟩ := List.exists_cons_of_ne_nil hne
    obtain rfl : slot = none := not_not.mp hslot
    have hfed' : Fed rest (mirror s (some v) st tag taken) := .inr (Option.some_ne_none v)
    exact (driveTurn_send (h.fits v (List.mem_cons_self ..))).ends
      (ends_of_fed h.send htag hfed' fun taken' h' => hready rest (some v) taken' h' hfed')

section CoreTurn

variable {s s₁ e : State} {fuel : Nat} {ins : List Int} {slot : Option Int} {taken : List Status}
  (h : Follows s ins slot none taken) (hfed : Fed ins (mirror s slot none .running taken))
  (hstep : instructionStep s = .next s₁) (hrun : runToEnd fuel s₁ = some e)

include h in
theorem Follows.taken_eq : taken = s.outq.map .output := by simpa using h.outputs.symm

include h hfed hstep hrun in
/-- A fault of the stream Core ends both runs with one record. -/
theorem ends_of_cycleFault {k : FaultKind} {d : Int}
    (hf : cycleFault (mirror s slot none .running taken) = some (k, d)) :
    Ends e ins (mirror s slot none .running taken) := by
  obtain ⟨n, -, hs⟩ := instructionStep_of_fault (cycleFault_of_mirror _ _ _ _ _ hf)
  obtain ⟨n', -, hu⟩ := instructionStep_of_fault hf
  cases hs.symm.trans hstep
  rw [runToEnd_of_not_running fuel fun h => by cases h] at hrun
  cases hrun
  refine (driveTurn_core hfed hu).ends (.now rfl h.taken_eq (.final (.err ⟨k, s.ip, d⟩) rfl ?_ rfl nofun hfed))
  rintro _ ⟨⟩
  exact notStarved_cycleFault_mirror _ _ _ _ _ k d hf

variable {i : Instr} (hin : InRange s.params s.ip = true) (hd : decode (s.mem.read s.ip) = .ok i)

include hin hd in
/-- The Core's turn of the stream machine runs the same instruction. -/
theorem instructionStep_mirror (hsafe : firstFault i (mirror s slot none .running taken) = none) :
    instructionStep (mirror s slot none .running taken) =
      .next (completed i (mirror (s.grow s.ip) slot none .running taken)) :=
  (instructionStep_of_decode (s := mirror s slot none .running taken) hin hd).trans
    (exec_of_safe (s := (mirror s slot none .running taken).grow s.ip) ((firstFault_memLen ..).trans hsafe))

include hstep hin hd in
/-- The sync step of an instruction that raises no fault. -/
theorem next_eq_completed (hsafe : firstFault i s = none) : s₁ = completed i (s.grow s.ip) := by
  have hs := instructionStep_of_decode hin hd
  rw [exec_of_safe (s := s.grow s.ip) ((firstFault_memLen ..).trans hsafe)] at hs
  exact Host.Outcome.next.inj (hstep.symm.trans hs)

include h hfed hstep hin hd in
theorem ends_of_quiet (hi : QuietInstr i) (hsafe : firstFault i (mirror s slot none .running taken) = none)
    (ih : Follows s₁ ins slot none taken → Ends e ins (mirror s₁ slot none .running taken)) :
    Ends e ins (mirror s slot none .running taken) := by
  obtain rfl := next_eq_completed hstep hin hd ((firstFault_mirror _ _ _ _ _ hi.1).symm.trans hsafe)
  have hu := instructionStep_mirror hin hd hsafe
  rw [completed_mirror hi] at hu
  exact (driveTurn_core hfed hu).ends (ih ((h.grow s.ip).completed hi))

include h hfed hstep hin in
/-- An output is appended to OUTQ, and posted in Idle. -/
theorem ends_of_output {a : Mode} (hd : decode (s.mem.read s.ip) = .ok (.output a))
    (hsafe : firstFault (.output a) (mirror s slot none .running taken) = none)
    (ih : ∀ v, Follows s₁ ins slot (some (.output v)) taken →
      Ends e ins (mirror s₁ slot (some (.output v)) .idle taken)) :
    Ends e ins (mirror s slot none .running taken) := by
  have hs₁ : s₁ = { afterOperand (s.grow s.ip) a with outq := s.outq ++ [operand (s.grow s.ip) 1 a] } := by
    rw [next_eq_completed hstep hin hd ((firstFault_mirror (i := .output a) _ _ _ _ _ nofun).symm.trans hsafe)]
    exact chanPut_sync (s := afterOperand (s.grow s.ip) a) h.mode _
  have hu : instructionStep (mirror s slot none .running taken) =
      .next (mirror s₁ slot (some (.output (operand (s.grow s.ip) 1 a))) .idle taken) := by
    rw [instructionStep_mirror hin hd hsafe, completed, hs₁,
      chanPut_stream (s := afterOperand (mirror (s.grow s.ip) slot none .running taken) a) rfl]
    rfl
  refine (driveTurn_core hfed hu).ends (ih _ ?_)
  subst hs₁
  exact ⟨h.mode, h.running, h.script, h.inputs, by simp [h.taken_eq], h.fits⟩

include h hfed hstep hrun hin in
/-- halt ends both runs with one snapshot. -/
theorem ends_of_halt (hd : decode (s.mem.read s.ip) = .ok .halt) : Ends e ins (mirror s slot none .running taken) := by
  have hs₁ : s₁ = { s.grow s.ip with tag := .halted } := by
    rcases completed_halt_cases (s.grow s.ip) with ⟨-, he⟩ | ⟨hmode, -⟩
    · rw [← he, next_eq_completed hstep hin hd rfl]
    · exact absurd (h.mode.symm.trans hmode) (by decide)
  have hu := instructionStep_mirror (slot := slot) (taken := taken) hin hd rfl
  rcases completed_halt_cases (mirror (s.grow s.ip) slot none .running taken) with ⟨hmode, -⟩ | ⟨-, he⟩
  · cases hmode
  · rw [he] at hu
    subst hs₁
    rw [runToEnd_of_not_running fuel fun h => by cases h] at hrun
    cases hrun
    exact (driveTurn_core hfed hu).ends (.now rfl h.taken_eq
      (.final (.ok (s.grow s.ip).snapshot s.outq) rfl nofun rfl nofun hfed))

include h hfed hstep hrun hin in
/-- An input takes the value that is next in INQ, which is in the slot; or the sync run starves and the stream Core
waits. -/
theorem ends_of_input {dst : Mode} (hd : decode (s.mem.read s.ip) = .ok (.input dst))
    (hsafe : firstFault (.input dst) (mirror s slot none .running taken) = none)
    (ih : Follows s₁ ins none none taken → Ends e ins (mirror s₁ none none .running taken)) :
    Ends e ins (mirror s slot none .running taken) := by
  have hu := instructionStep_mirror hin hd hsafe
  have hwrite : writeFault s 1 dst = none := (firstFault_input_mirror s slot none .running taken dst).symm.trans hsafe
  cases slot with
  | some v =>
    have hq : s.inq = v :: ins := h.inputs
    have hstarved : starvedFault s = none := (starvedFault_eq_none_iff s).mpr fun _ => by simp [hq]
    have hs₁ : s₁ = inputStored { s.grow s.ip with inq := ins } dst v := by
      rw [next_eq_completed hstep hin hd (Option.or_eq_none_iff.mpr ⟨hwrite, hstarved⟩)]
      exact inputCompleted_sync_cons (s := s.grow s.ip) dst h.mode hq
    rw [completed,
      inputCompleted_stream_some (s := mirror (s.grow s.ip) (some v) none .running taken) dst rfl rfl] at hu
    subst hs₁
    exact (driveTurn_core hfed hu).ends (ih ⟨h.mode, h.running, h.script, rfl, h.outputs, h.fits⟩)
  | none =>
    obtain rfl : ins = [] := hfed.resolve_right (not_not.mpr rfl)
    have hs := execInput_of_starved (s := s.grow s.ip) (dst := dst) hwrite h.mode h.inputs
    cases ((instructionStep_of_decode hin hd).trans hs).symm.trans hstep
    rw [runToEnd_of_not_running fuel fun h => by cases h] at hrun
    cases hrun
    rw [completed, inputCompleted_stream_none (s := mirror (s.grow s.ip) none none .running taken) dst rfl rfl] at hu
    exact (driveTurn_core hfed hu).ends (.now rfl h.taken_eq
      (.starved ⟨.starvedInput, s.ip, 0⟩ rfl rfl rfl rfl rfl rfl))

end CoreTurn

/-- R109: from a stream state that follows a sync state, the driver comes to the end of the sync run. -/
theorem ends_of_runToEnd {fuel : Nat} {s e : State} {ins : List Int} {slot : Option Int} {st : Option Status}
    {tag : Tag} {taken : List Status} (h : Follows s ins slot st taken) (htag : tag = .idle ∨ tag = .running ∧ st = none)
    (hrun : runToEnd fuel s = some e) : Ends e ins (mirror s slot st tag taken) := by
  induction fuel generalizing s ins slot st tag taken with
  | zero => rw [runToEnd, if_pos h.running] at hrun; cases hrun
  | succ fuel ih =>
    obtain ⟨_, s₁, ⟨⟩, hstep, hrun⟩ := step_of_runToEnd h.running hrun
    rw [step_of_running h.running h.script] at hstep
    refine ends_of_ready h htag fun ins slot taken h hfed => ?_
    cases hf : cycleFault (mirror s slot none .running taken) with
    | some kd => exact ends_of_cycleFault h hfed hstep hrun hf
    | none =>
      obtain ⟨i, hd, hin, hsafe, -⟩ := instructionStep_of_safe hf
      cases i with
      | input dst => exact ends_of_input h hfed hstep hrun hin hd hsafe fun h' => ih h' (.inr ⟨rfl, rfl⟩) hrun
      | output a => exact ends_of_output h hfed hstep hin hd hsafe fun v h' => ih h' (.inl rfl) hrun
      | halt => exact ends_of_halt h hfed hstep hrun hin hd
      | _ => exact ends_of_quiet h hfed hstep hin hd ⟨nofun, nofun, nofun⟩ hsafe fun h' => ih h' (.inr ⟨rfl, rfl⟩) hrun

/-! ## The three cases of R109 -/

/-- The stream machine loaded with the image of a sync run comes to the end of that run. -/
theorem ends_of_constructions {p : Params} {image inputs : List Int} {s₀ e : State} {fuel : Nat}
    (hs₀ : constructSync p image inputs = some s₀) (hrun : runToEnd fuel s₀ = some e) :
    ∃ s, constructStream { p with ioMode := .stream } image [] = some s ∧ Ends e inputs s := by
  obtain ⟨⟨hmode, hW, himage, hinputs⟩, rfl⟩ := constructSync_eq_some_iff.mp hs₀
  refine ⟨_, constructStream_eq_some_iff.mpr ⟨⟨rfl, hW, himage⟩, rfl⟩, ?_⟩
  exact ends_of_runToEnd (s := freshSync p image inputs) (slot := none) (st := none) (taken := [])
    ⟨hmode, rfl, rfl, rfl, rfl, hinputs⟩ (.inl rfl) hrun

/-- At a final status posted, the driver takes it and stops. -/
theorem drive_of_final {n : Nat} {ins ins' : List Int} {u u' : State} {st : Status}
    (hn : driveState n ins u = some (ins', u')) (hmode : u'.params.ioMode = .stream) (hstatus : u'.status = some st)
    (hfinal : st.isFinal = true) (htag : u'.tag ≠ .ended) (hfed : Fed ins' u') :
    drive (n + 1) ins u = some (u'.received ++ [st]) := by
  have hnext := nextDrive_of_fed hfed
  rw [if_pos (by simp [hstatus])] at hnext
  have hstep := step_of_take (s := { u' with script := [.driver .take] }) hmode rfl hstatus
  have hturn : DriveTurn ins' u' ins' _ := ⟨_, hnext, hstep⟩
  rw [drive_add hn htag, hturn.drive_succ htag, drive, if_pos (if_pos hfinal)]

/-- Where the sync run returns, and did not starve, the driver takes its outputs and then its result. -/
theorem drive_of_ends {e s : State} {inputs : List Int} {res : RunResult} (h : Ends e inputs s)
    (hres : runResult e = some res) (hkind : ∀ r, res = .err r → r.kind ≠ .starvedInput) :
    ∃ n, drive n inputs s = some (e.outq.map .output ++ [finalStatus res]) := by
  obtain ⟨n, ins', u', hn, hmode, hreceived, hending⟩ := h
  cases hending with
  | final res' hres' _ hstatus htag hfed =>
    cases hres.symm.trans hres'
    rw [← hreceived]
    exact ⟨n + 1, drive_of_final hn hmode hstatus (by cases res <;> rfl) htag hfed⟩
  | starved r hres' hk =>
    cases hres.symm.trans hres'
    exact absurd hk (hkind r rfl)

/-- Settles O57: the end of a sync run that returns Ok. -/
theorem streamingEqualsSynchronousOnSuccess : Obligations.StreamingEqualsSynchronousOnSuccess := by
  intro p image inputs mem outs fuel _ hrun
  obtain ⟨s₀, e, hs₀, he, hres⟩ := runSync_eq_some hrun
  obtain ⟨s, hs, hends⟩ := ends_of_constructions hs₀ he
  obtain ⟨n, hn⟩ := drive_of_ends hends hres nofun
  exact ⟨s, n, hs, outq_of_runResult_ok hres ▸ hn⟩

/-- Settles O58: the end of a sync run that faults and does not starve. -/
theorem streamingEqualsSynchronousOnFault : Obligations.StreamingEqualsSynchronousOnFault := by
  intro p image inputs s₀ e r fuel _ hs₀ he hres hkind
  obtain ⟨s, hs, hends⟩ := ends_of_constructions hs₀ he
  obtain ⟨n, hn⟩ := drive_of_ends hends hres (by rintro _ ⟨⟩; exact hkind)
  exact ⟨s, n, hs, hn⟩

/-- The stream Core waits with nothing to come, and the driver has taken `taken`. -/
structure Stuck (taken : List Status) (u : State) : Prop where
  tag : u.tag = .awaitingInput
  slot : u.inslot = none
  status : u.status = none
  received : u.received = taken

/-- A stuck Core passes its turn. -/
theorem Stuck.driveTurn {taken : List Status} {u : State} (h : Stuck taken u) :
    DriveTurn [] u [] { u with script := [] } := by
  have hnext := nextDrive_of_fed (ins := []) (u := u) (.inl rfl)
  rw [if_neg (by simp [h.status]), if_neg (by simp [h.tag])] at hnext
  refine ⟨_, hnext, step_of_core_disabled (s := { u with script := [.core] }) rfl ?_⟩
  simp [coreEnabled, h.tag, h.slot]

theorem Stuck.forever {taken : List Status} {u : State} (h : Stuck taken u) (k : Nat) :
    ∃ t, driveState k [] u = some ([], t) ∧ Stuck taken t := by
  induction k generalizing u with
  | zero => exact ⟨u, rfl, h⟩
  | succ k ih =>
    rw [h.driveTurn.driveState_succ]
    exact ih ⟨h.tag, h.slot, h.status, h.received⟩

/-- Where the sync run starved, from some turn on the stream Core is stuck. -/
theorem stuck_of_ends {e s : State} {inputs : List Int} {r : FaultRecord} (h : Ends e inputs s)
    (hres : runResult e = some (.err r)) (hkind : r.kind = .starvedInput) :
    ∃ n, ∀ k, ∃ t, driveState (n + k) inputs s = some ([], t) ∧ Stuck (e.outq.map .output) t := by
  obtain ⟨n, ins', u', hn, -, hreceived, hending⟩ := h
  cases hending with
  | final res' hres' hk =>
    cases hres.symm.trans hres'
    exact absurd hkind (hk r rfl)
  | starved _ _ _ hins htag hslot hstatus =>
    subst hins
    exact ⟨n, fun k => driveState_add hn k ▸ Stuck.forever ⟨htag, hslot, hstatus, hreceived⟩ k⟩

/-- Settles O60: the stuck Core stays stuck. -/
theorem starvedStreamWaitsForEver : Obligations.StarvedStreamWaitsForEver := by
  intro p image inputs s₀ e s r fuel _ hs₀ he hres hkind hs
  obtain ⟨s', hs', hends⟩ := ends_of_constructions hs₀ he
  cases hs.symm.trans hs'
  obtain ⟨n, hn⟩ := stuck_of_ends hends hres hkind
  refine ⟨n, fun k => ?_⟩
  obtain ⟨t, ht, hstuck⟩ := hn k
  exact ⟨t, ht, hstuck.tag, hstuck.slot, hstuck.status, hstuck.received⟩

/-- Settles O59: a driver that stopped would have reached Ended, and Ended is terminal, but the Core comes to wait. -/
theorem streamNeverEndsWhereSyncStarves : Obligations.StreamNeverEndsWhereSyncStarves := by
  intro p image inputs r fuel s _ hrun hkind hs n
  obtain ⟨s₀, e, hs₀, he, hres⟩ := runSync_eq_some hrun
  obtain ⟨s', hs', hends⟩ := ends_of_constructions hs₀ he
  cases hs.symm.trans hs'
  obtain ⟨m, hm⟩ := stuck_of_ends hends hres hkind
  refine Option.eq_none_iff_forall_ne_some.mpr fun taken htaken => ?_
  obtain ⟨k, ins', u', hk, hended⟩ := ended_of_drive htaken
  obtain ⟨t, ht, hstuck⟩ := hm k
  rw [Nat.add_comm, driveState_add hk] at ht
  exact absurd ((tag_of_driveState_ended hended ht).symm.trans hstuck.tag) (by decide)

end Sys2Proof.Machine
